-- ==== Sys2Proof/Word.lean ====
section
/-! DEFINITION. The bit-vector types of `10_state.md` R20 and `30_encoding.md` R71. Every value is
unsigned (`00_scope.md` R7). -/

namespace Sys2Proof

/-- A 4-bit field or selector: `op`, `x`, `y`, `n`, a key value. -/
abbrev Nibble := BitVec 4

/-- An 8-bit value: a memory cell, a general register, a timer, `kk`. -/
abbrev Byte := BitVec 8

/-- The 12-bit address field `nnn`. -/
abbrev Addr12 := BitVec 12

/-- A 16-bit value: an instruction word, `pc`, `I`, a stack entry. -/
abbrev Word := BitVec 16

end Sys2Proof
end

