-- ==== Sys2Proof/Config.lean ====
section
/-! DEFINITION. The parameters of `00_scope.md` R5 that are numbers, and the one free value.

Parameters of R5 that are fixed behaviours are built into the meanings and not varied (log 15):
`FETCH_BYTE_ORDER` in Decode.lean, the `QUIRK_` constants in the instruction meanings, `DECODE_LOOSE` = false in
the opcode table. `SCALE`, `Intensity` and `complement` are arguments of `presentBuffer` (log 12);
`INSTRUCTIONS_PER_TICK` is any interleaving of the field `schedule` (log 7, log 16). -/

namespace Sys2Proof

/-- `MEM_SIZE` (R5, R21). -/
abbrev Config.memSize : Nat := 4096

/-- `FONT_BASE` (R5, R22). -/
abbrev Config.fontBase : Nat := 0x050

/-- Bytes of one font glyph (`FONT_GLYPHS` of R5, R22). -/
abbrev Config.glyphBytes : Nat := 5

/-- `PROG_BASE` (R5, R236). -/
abbrev Config.progBase : Nat := 0x200

/-- `PC_RESET` (R5, R26). -/
abbrev Config.pcReset : Word := 0x200

/-- `STACK_DEPTH` (R5, R27). -/
abbrev Config.stackDepth : Nat := 16

/-- `DISP_W` (R5, R31). -/
abbrev Config.dispW : Nat := 64

/-- `DISP_H` (R5, R31). -/
abbrev Config.dispH : Nat := 32

/-- `NKEYS` (R5, R32). -/
abbrev Config.nKeys : Nat := 16

/-- The free byte of `draw8()` (`41_load_alu.md` R133, D17): the `n`-th random byte since reset. It has no
body, so nothing can evaluate it and a claim holds for every value it may have (log 6). -/
opaque Config.draw8 : Nat → Byte

end Sys2Proof
end

