-- ==== Sys2Proof/WellFormed.lean ====
section
/-! DEFINITION. The checks on data that enters from outside and whose type does not already bound it. An `Instr`
needs none: R73 makes every operand value legal and the operand widths are types. A raw instruction word is
checked by the decoder (`Sys2Proof.isCanonical` in Decode.lean). -/

namespace Sys2Proof

/-- A program image fits from `PROG_BASE` to the end of memory (`70_reset_and_hazards.md` R236). -/
def WellFormed.image (bytes : List Byte) : Bool := Config.progBase + bytes.length ≤ Config.memSize

/-- A key identifier is one of the 16 values (`44_keys_timers.md` R191). -/
def WellFormed.keyId (id : Nat) : Bool := id < Config.nKeys

/-- A presentation scale is a positive integer (`00_scope.md` R5, `SCALE` at least 1). -/
def WellFormed.scale (n : Nat) : Bool := 1 ≤ n

end Sys2Proof
end

