-- ==== Sys2Proof/Decode.lean ====
section
/-! DEFINITION. The instruction decoder and the encoder (`30_encoding.md`). Every instruction is one 16-bit word
(R70); the decoder computes six fields (R71) and looks the word up in the (mask, match) table of R80 (R74, R81).
Opcode numbers not given by the source, and the strict match, are the spec's own decisions (log 4). -/

namespace Sys2Proof

/-- `op`, w[15:12] (R71). -/
def fieldOp (w : Word) : Nibble := w.extractLsb' 12 4

/-- `x`, w[11:8] (R71). -/
def fieldX (w : Word) : Nibble := w.extractLsb' 8 4

/-- `y`, w[7:4] (R71). -/
def fieldY (w : Word) : Nibble := w.extractLsb' 4 4

/-- `n`, w[3:0] (R71). -/
def fieldN (w : Word) : Nibble := w.extractLsb' 0 4

/-- `kk`, w[7:0] (R71). -/
def fieldKK (w : Word) : Byte := w.extractLsb' 0 8

/-- `nnn`, w[11:0] (R71). -/
def fieldNNN (w : Word) : Addr12 := w.extractLsb' 0 12

/-- One row of the opcode map R80: a word `w` selects it when `w & mask = match`, and it then stands for `build w`. -/
structure OpRow where
  mnemonic : String
  mask : Word
  pattern : Word
  build : Word → Instr

/-- `w & mask = match` (R80). -/
def OpRow.selects (r : OpRow) (w : Word) : Bool := w &&& r.mask == r.pattern

/-- Rows 1 to 9 of R80. -/
def flowRows : List OpRow :=
  [ ⟨"CLS", 0xFFFF, 0x00E0, fun _ => .cls⟩
  , ⟨"RET", 0xFFFF, 0x00EE, fun _ => .ret⟩
  , ⟨"JP", 0xF000, 0x1000, fun w => .jp (fieldNNN w)⟩
  , ⟨"CALL", 0xF000, 0x2000, fun w => .call (fieldNNN w)⟩
  , ⟨"SE_IMM", 0xF000, 0x3000, fun w => .seImm (fieldX w) (fieldKK w)⟩
  , ⟨"SNE_IMM", 0xF000, 0x4000, fun w => .sneImm (fieldX w) (fieldKK w)⟩
  , ⟨"SE_REG", 0xF00F, 0x5000, fun w => .seReg (fieldX w) (fieldY w)⟩
  , ⟨"LD_IMM", 0xF000, 0x6000, fun w => .ldImm (fieldX w) (fieldKK w)⟩
  , ⟨"ADD_IMM", 0xF000, 0x7000, fun w => .addImm (fieldX w) (fieldKK w)⟩ ]

/-- Rows 10 to 18 of R80. -/
def aluRows : List OpRow :=
  [ ⟨"MOV", 0xF00F, 0x8000, fun w => .mov (fieldX w) (fieldY w)⟩
  , ⟨"OR", 0xF00F, 0x8001, fun w => .or (fieldX w) (fieldY w)⟩
  , ⟨"AND", 0xF00F, 0x8002, fun w => .and (fieldX w) (fieldY w)⟩
  , ⟨"XOR", 0xF00F, 0x8003, fun w => .xor (fieldX w) (fieldY w)⟩
  , ⟨"ADD", 0xF00F, 0x8004, fun w => .add (fieldX w) (fieldY w)⟩
  , ⟨"SUB", 0xF00F, 0x8005, fun w => .sub (fieldX w) (fieldY w)⟩
  , ⟨"SHR", 0xF00F, 0x8006, fun w => .shr (fieldX w) (fieldY w)⟩
  , ⟨"SUBN", 0xF00F, 0x8007, fun w => .subn (fieldX w) (fieldY w)⟩
  , ⟨"SHL", 0xF00F, 0x800E, fun w => .shl (fieldX w) (fieldY w)⟩ ]

/-- Rows 19 to 23 of R80. -/
def middleRows : List OpRow :=
  [ ⟨"SNE_REG", 0xF00F, 0x9000, fun w => .sneReg (fieldX w) (fieldY w)⟩
  , ⟨"LD_I", 0xF000, 0xA000, fun w => .ldI (fieldNNN w)⟩
  , ⟨"JP_V0", 0xF000, 0xB000, fun w => .jpV0 (fieldNNN w)⟩
  , ⟨"RND", 0xF000, 0xC000, fun w => .rnd (fieldX w) (fieldKK w)⟩
  , ⟨"DRW", 0xF000, 0xD000, fun w => .drw (fieldX w) (fieldY w) (fieldN w)⟩ ]

/-- Rows 24 to 34 of R80. -/
def keyTimerRows : List OpRow :=
  [ ⟨"SKP", 0xF0FF, 0xE09E, fun w => .skp (fieldX w)⟩
  , ⟨"SKNP", 0xF0FF, 0xE0A1, fun w => .sknp (fieldX w)⟩
  , ⟨"LD_VX_DT", 0xF0FF, 0xF007, fun w => .ldVxDt (fieldX w)⟩
  , ⟨"LD_VX_K", 0xF0FF, 0xF00A, fun w => .ldVxK (fieldX w)⟩
  , ⟨"LD_DT_VX", 0xF0FF, 0xF015, fun w => .ldDtVx (fieldX w)⟩
  , ⟨"LD_ST_VX", 0xF0FF, 0xF018, fun w => .ldStVx (fieldX w)⟩
  , ⟨"ADD_I", 0xF0FF, 0xF01E, fun w => .addI (fieldX w)⟩
  , ⟨"LD_F", 0xF0FF, 0xF029, fun w => .ldF (fieldX w)⟩
  , ⟨"BCD", 0xF0FF, 0xF033, fun w => .bcd (fieldX w)⟩
  , ⟨"ST_REGS", 0xF0FF, 0xF055, fun w => .stRegs (fieldX w)⟩
  , ⟨"LD_REGS", 0xF0FF, 0xF065, fun w => .ldRegs (fieldX w)⟩ ]

/-- The complete opcode map, 34 rows (R80). -/
def opTable : List OpRow := flowRows ++ aluRows ++ middleRows ++ keyTimerRows

/-- The instruction a word stands for, if it selects a row of R80 (R81). -/
def decodeWord (w : Word) : Option Instr := (opTable.find? (·.selects w)).map (·.build w)

/-- The word is one of the canonical encodings of R80; every other word is a decode fault (R81, R82). -/
def isCanonical (w : Word) : Bool := opTable.any (·.selects w)

/-- The word made of two bytes of memory: the byte at the lower address is w[15:8] (`20_memory.md` R54, log 3). -/
def wordOfBytes (b0 b1 : Byte) : Word := b0 ++ b1

/-- The two bytes of a word as memory holds them, lower address first (`20_memory.md` R54, log 3). -/
def bytesOfWord (w : Word) : List Byte := [w.extractLsb' 8 8, w.extractLsb' 0 8]

/-- What bytes decode to: an instruction and the bytes after it, or the reason why there is none. -/
inductive Decoded where
  | instr (i : Instr) (rest : List Byte)
  /-- The word selects no row of R80 (R82). -/
  | illegal (w : Word)
  /-- Fewer than the two bytes of an instruction. -/
  | truncated
  deriving DecidableEq, Repr

/-- Decode the first instruction of a list of bytes and give the bytes after it; total on any bytes (R81). -/
def decode : List Byte → Decoded
  | b0 :: b1 :: rest =>
    match decodeWord (wordOfBytes b0 b1) with
    | some i => .instr i rest
    | none => .illegal (wordOfBytes b0 b1)
  | _ => .truncated

/-- Formats XYF and XYN of R72. -/
def packXYN (op x y n : Nibble) : Word := op ++ x ++ y ++ n

/-- Formats XKK and XFF of R72. -/
def packXKK (op x : Nibble) (kk : Byte) : Word := op ++ x ++ kk

/-- Format NNN of R72. -/
def packNNN (op : Nibble) (nnn : Addr12) : Word := op ++ nnn

/-- The word of an instruction: the pattern of its row of R80 with its operands in the fields of R71. -/
def encodeWord : Instr → Word
  | .cls => 0x00E0
  | .ret => 0x00EE
  | .jp nnn => packNNN 0x1 nnn
  | .call nnn => packNNN 0x2 nnn
  | .seImm x kk => packXKK 0x3 x kk
  | .sneImm x kk => packXKK 0x4 x kk
  | .seReg x y => packXYN 0x5 x y 0x0
  | .ldImm x kk => packXKK 0x6 x kk
  | .addImm x kk => packXKK 0x7 x kk
  | .mov x y => packXYN 0x8 x y 0x0
  | .or x y => packXYN 0x8 x y 0x1
  | .and x y => packXYN 0x8 x y 0x2
  | .xor x y => packXYN 0x8 x y 0x3
  | .add x y => packXYN 0x8 x y 0x4
  | .sub x y => packXYN 0x8 x y 0x5
  | .shr x y => packXYN 0x8 x y 0x6
  | .subn x y => packXYN 0x8 x y 0x7
  | .shl x y => packXYN 0x8 x y 0xE
  | .sneReg x y => packXYN 0x9 x y 0x0
  | .ldI nnn => packNNN 0xA nnn
  | .jpV0 nnn => packNNN 0xB nnn
  | .rnd x kk => packXKK 0xC x kk
  | .drw x y n => packXYN 0xD x y n
  | .skp x => packXKK 0xE x 0x9E
  | .sknp x => packXKK 0xE x 0xA1
  | .ldVxDt x => packXKK 0xF x 0x07
  | .ldVxK x => packXKK 0xF x 0x0A
  | .ldDtVx x => packXKK 0xF x 0x15
  | .ldStVx x => packXKK 0xF x 0x18
  | .addI x => packXKK 0xF x 0x1E
  | .ldF x => packXKK 0xF x 0x29
  | .bcd x => packXKK 0xF x 0x33
  | .stRegs x => packXKK 0xF x 0x55
  | .ldRegs x => packXKK 0xF x 0x65

/-- The bytes of an instruction as memory holds them (R70, `20_memory.md` R54). -/
def encode (i : Instr) : List Byte := bytesOfWord (encodeWord i)

/-- The name of an instruction's row in R80. -/
def Instr.mnemonic : Instr → String
  | .cls => "CLS"
  | .ret => "RET"
  | .jp _ => "JP"
  | .call _ => "CALL"
  | .seImm _ _ => "SE_IMM"
  | .sneImm _ _ => "SNE_IMM"
  | .seReg _ _ => "SE_REG"
  | .ldImm _ _ => "LD_IMM"
  | .addImm _ _ => "ADD_IMM"
  | .mov _ _ => "MOV"
  | .or _ _ => "OR"
  | .and _ _ => "AND"
  | .xor _ _ => "XOR"
  | .add _ _ => "ADD"
  | .sub _ _ => "SUB"
  | .shr _ _ => "SHR"
  | .subn _ _ => "SUBN"
  | .shl _ _ => "SHL"
  | .sneReg _ _ => "SNE_REG"
  | .ldI _ => "LD_I"
  | .jpV0 _ => "JP_V0"
  | .rnd _ _ => "RND"
  | .drw _ _ _ => "DRW"
  | .skp _ => "SKP"
  | .sknp _ => "SKNP"
  | .ldVxDt _ => "LD_VX_DT"
  | .ldVxK _ => "LD_VX_K"
  | .ldDtVx _ => "LD_DT_VX"
  | .ldStVx _ => "LD_ST_VX"
  | .addI _ => "ADD_I"
  | .ldF _ => "LD_F"
  | .bcd _ => "BCD"
  | .stRegs _ => "ST_REGS"
  | .ldRegs _ => "LD_REGS"

/-- The instruction the decoder reads from a word of the opcode table (`nbits` is 16 on this hardware, R70): the
word is laid out in memory order and decoded; bits above `nbits` are 0. -/
def decodeTableWord (nbits w : Nat) : Option Instr :=
  match decode (bytesOfWord (BitVec.ofNat 16 (w % 2 ^ nbits))) with
  | .instr i _ => some i
  | .illegal _ => none
  | .truncated => none

end Sys2Proof
end

