-- ==== Sys2Proof/Machine/State.lean ====
section
/-! DEFINITION. The state of the machine as plain data (`10_state.md` R20), its value after reset (R38), the faults
(`60_exceptions.md` R200, R201) and the refusals. -/

namespace Sys2Proof.Machine

/-- `mem` as the list of the cells that differ from their reset contents, addresses rising (R21, log 2);
`Memory.wf` states the form, `Memory.readByte` reads it. -/
abbrev Memory := List Host.Cell

/-- A 32-row grid of 64 one-bit cells: bit `c` of row `r` is cell `(r, c)` (R31, R35, log 11). -/
abbrev Grid := Vector (BitVec 64) 32

/-- The cause codes of `60_exceptions.md` R201: 1, 2, 3 in this order. -/
inductive FaultCode where
  | bounds
  | decode
  | stack
  deriving DecidableEq, Repr

/-- The kinds of a stack fault (`60_exceptions.md` R201). -/
inductive StackKind where
  | underflow
  | overflow
  deriving DecidableEq, Repr

/-- The fault record (`60_exceptions.md` R203). -/
structure FaultRecord where
  code : FaultCode
  /-- First address of the access of a bounds fault, else 0. -/
  addr : Nat
  /-- Length of the access of a bounds fault, else 0. -/
  len : Nat
  /-- The word of a decode fault or the executing word; 0 for a fetch fault and for a program load. -/
  word : Word
  kind : Option StackKind
  /-- Address of the instruction being fetched or executed. -/
  ipc : Word
  deriving DecidableEq, Repr

/-- `run_state` (R33). -/
inductive RunState where
  | running
  /-- Suspended until a key is available for register `x`. -/
  | awaitingKey (x : Nibble)
  /-- Terminal. -/
  | faulted (r : FaultRecord)
  deriving DecidableEq, Repr

/-- The external events that act between engine steps (`20_memory.md` R61). -/
inductive Event where
  /-- `Tick()` of the timer ticker (`44_keys_timers.md` R188). -/
  | tick
  /-- `KeyDownEvent(k)` (`44_keys_timers.md` R186). -/
  | keyDown (k : Nibble)
  /-- `KeyUpEvent(k)` (`44_keys_timers.md` R187). -/
  | keyUp (k : Nibble)
  /-- `ClearRedraw()` (`43_display.md` R167). -/
  | clearRedraw
  /-- `Present(buf)`, as far as it touches the machine (`43_display.md` R168). -/
  | present
  deriving DecidableEq, Repr

/-- Whose transition comes next (`00_scope.md` R10, `20_memory.md` R61, log 7). -/
inductive Turn where
  | engine
  | event (e : Event)
  deriving DecidableEq, Repr

/-- The complete state (R20), under the spec's names, and the model's own two fields `draws` and `schedule`. -/
structure State where
  /-- Memory (R21). -/
  mem : Memory
  /-- General registers V0 to VF (R23). -/
  V : Vector Byte 16
  /-- Index register (R25). -/
  I : Word
  /-- Program counter (R26). -/
  pc : Word
  /-- The stack entries in use, top first; their number is `sp` (R27, log 5). -/
  stack : List Word
  /-- Delay timer (R29). -/
  DT : Byte
  /-- Sound timer (R30). -/
  ST : Byte
  /-- Display (R31). -/
  px : Grid
  /-- Cells changed since the last presentation (R35). -/
  dirty : Grid
  /-- `needs_redraw` (R34). -/
  needsRedraw : Bool
  /-- `run_state` (R33). -/
  runState : RunState
  /-- Bit `k` is set when key `k` is held (R32). -/
  pressed : BitVec 16
  /-- `last_key` (R32). -/
  lastKey : Option Nibble
  /-- The model's own: how many random bytes RND has taken (`41_load_alu.md` R133, log 6). -/
  draws : Nat
  /-- The model's own: the turns to come, head first; the engine moves when it is empty (log 7). -/
  schedule : List Turn
  deriving DecidableEq, Repr

/-- Every fault is fatal: the machine stops (`60_exceptions.md` R200, R204). Each carries the fault record
(`fault_record` of R217) and the state at the fault, whose `runState` is `Faulted(record)` (R205, log 8).
A fault is safe: after it nothing runs. -/
inductive Fault where
  /-- BoundsFault, raised by instruction fetch, DRW, BCD, ST_REGS, LD_REGS and the program load (R201). Safe. -/
  | bounds (r : FaultRecord) (final : State)
  /-- DecodeFault, raised by dispatch on a word outside R80 (R201). Safe. -/
  | decode (r : FaultRecord) (final : State)
  /-- StackFault, raised by RET (underflow) and CALL (overflow) (R201). Safe. -/
  | stack (r : FaultRecord) (final : State)
  deriving DecidableEq, Repr

/-- Why the model gives no meaning. -/
inductive Refusal where
  /-- Raised by `exec`'s arm of an instruction that has no meaning yet; no arm does. Safe. -/
  | notModelled (mnemonic : String)
  deriving DecidableEq, Repr

/-- The machine right after reset (R38, `70_reset_and_hazards.md` R230, R231; log 1, log 2). -/
def State.reset : State where
  mem := []
  V := Vector.replicate 16 0
  I := 0
  pc := Config.pcReset
  stack := []
  DT := 0
  ST := 0
  px := Vector.replicate 32 0
  dirty := Vector.replicate 32 0
  needsRedraw := false
  runState := .running
  pressed := 0
  lastKey := none
  draws := 0
  schedule := []

end Sys2Proof.Machine
end

