-- ==== Sys2Proof/Machine/Memory.lean ====
section
/-! DEFINITION. Memory: reset contents, one-byte access, and the two bounds-checked primitives of
`20_memory.md` R52 and R53 through which every access goes. -/

namespace Sys2Proof.Machine

/-- The glyphs of the hexadecimal digits 0 to 7, five bytes each, top row first (`10_state.md` R22, log 2). -/
def fontLow : List (List Byte) :=
  [ [0xF0, 0x90, 0x90, 0x90, 0xF0]
  , [0x20, 0x60, 0x20, 0x20, 0x70]
  , [0xF0, 0x10, 0xF0, 0x80, 0xF0]
  , [0xF0, 0x10, 0xF0, 0x10, 0xF0]
  , [0x90, 0x90, 0xF0, 0x10, 0x10]
  , [0xF0, 0x80, 0xF0, 0x10, 0xF0]
  , [0xF0, 0x80, 0xF0, 0x90, 0xF0]
  , [0xF0, 0x10, 0x20, 0x40, 0x40] ]

/-- The glyphs of the digits 8 to F (`10_state.md` R22, log 2). -/
def fontHigh : List (List Byte) :=
  [ [0xF0, 0x90, 0xF0, 0x90, 0xF0]
  , [0xF0, 0x90, 0xF0, 0x10, 0xF0]
  , [0xF0, 0x90, 0xF0, 0x90, 0x90]
  , [0xE0, 0x90, 0xE0, 0x90, 0xE0]
  , [0xF0, 0x80, 0x80, 0x80, 0xF0]
  , [0xE0, 0x90, 0x90, 0x90, 0xE0]
  , [0xF0, 0x80, 0xF0, 0x80, 0xF0]
  , [0xF0, 0x80, 0xF0, 0x80, 0x80] ]

/-- The 16 font glyphs (`10_state.md` R22). -/
def fontGlyphs : List (List Byte) := fontLow ++ fontHigh

/-- What an unlisted address reads as: the reset contents of memory (`10_state.md` R22, R38), the font at
0x050 to 0x09F and 0x00 elsewhere (log 2). -/
def resetByte (a : Nat) : Byte :=
  if Config.fontBase ≤ a then
    (fontGlyphs.getD ((a - Config.fontBase) / Config.glyphBytes) []).getD ((a - Config.fontBase) % Config.glyphBytes) 0
  else 0

/-- The byte at an address (R21). -/
def Memory.readByte : Memory → Nat → Byte
  | [], a => resetByte a
  | (k, b) :: m, a => if k = a then b else Memory.readByte m a

/-- Put a cell before the first cell with a larger address. -/
def Memory.insert : Memory → Nat → Byte → Memory
  | [], a, v => [(a, v)]
  | (k, b) :: m, a, v => if a < k then (a, v) :: (k, b) :: m else (k, b) :: Memory.insert m a v

/-- Write one byte, keeping the canonical form: a cell that holds its reset contents is not listed (R21). -/
def Memory.writeByte (m : Memory) (a : Nat) (v : Byte) : Memory :=
  if v = resetByte a then m.filter (·.1 != a) else Memory.insert (m.filter (·.1 != a)) a v

/-- The canonical form of memory: addresses strictly rising and inside the address space (R50), and no cell
equal to its reset contents. -/
abbrev Memory.wf (m : Memory) : Prop :=
  m.Pairwise (·.1 < ·.1) ∧ ∀ c ∈ m, c.1 < Config.memSize ∧ c.2 ≠ resetByte c.1

/-- The `n` bytes from address `a` upward, first byte first. -/
def Memory.readBytes (m : Memory) (a : Nat) : Nat → List Byte
  | 0 => []
  | n + 1 => m.readByte a :: Memory.readBytes m (a + 1) n

/-- Write a list of bytes from address `a` upward. -/
def Memory.writeBytes (m : Memory) (a : Nat) : List Byte → Memory
  | [] => m
  | v :: vs => Memory.writeBytes (m.writeByte a v) (a + 1) vs

/-- The bounds rule `a + n ≤ 4096` on naturals (R51), also for `n = 0` (R52). -/
def inBounds (a n : Nat) : Bool := a + n ≤ Config.memSize

/-- `MemRead(a, n)` (R52): the whole access is checked before any byte is read; `none` is its bounds fault. -/
def memRead (m : Memory) (a n : Nat) : Option (List Byte) :=
  if inBounds a n then some (m.readBytes a n) else none

/-- `MemWrite(a, n, v)` (R53): the whole access is checked before any byte is written; `none` is its bounds fault. -/
def memWrite (m : Memory) (a : Nat) (vs : List Byte) : Option Memory :=
  if inBounds a vs.length then some (m.writeBytes a vs) else none

end Sys2Proof.Machine
end

