-- ==== Sys2Proof/Machine/Ops.lean ====
section
/-! DEFINITION. The named operations over the state: one accessor and one update per register, the call stack
(`10_state.md` R27, R28), raising a fault (`60_exceptions.md` R203, R204, R205) and the interface outputs (R217).
There is no return from a fault (R208). -/

namespace Sys2Proof.Machine

/-- `V[x]` (R23): every selector is legal and no register is hard-wired. -/
def State.readV (s : State) (x : Nibble) : Byte := s.V[x.toNat]'x.isLt

/-- `V[x] <- v` (R23). -/
def State.setV (s : State) (x : Nibble) (v : Byte) : State := { s with V := s.V.set x.toNat v x.isLt }

/-- `mem <- m`. -/
def State.setMem (s : State) (m : Memory) : State := { s with mem := m }

/-- `I <- a` (R25). -/
def State.setI (s : State) (a : Word) : State := { s with I := a }

/-- `pc <- a` (R26). -/
def State.setPc (s : State) (a : Word) : State := { s with pc := a }

/-- The entries of the call stack, top first (R27). -/
def State.setStack (s : State) (st : List Word) : State := { s with stack := st }

/-- `DT <- v` (R29). -/
def State.setDT (s : State) (v : Byte) : State := { s with DT := v }

/-- `ST <- v` (R30). -/
def State.setST (s : State) (v : Byte) : State := { s with ST := v }

/-- Both grids of the display (R31, R35). -/
def State.setDisplay (s : State) (px dirty : Grid) : State := { s with px := px, dirty := dirty }

/-- `needs_redraw <- b` (R34). -/
def State.setRedraw (s : State) (b : Bool) : State := { s with needsRedraw := b }

/-- `run_state <- r` (R33). -/
def State.setRun (s : State) (r : RunState) : State := { s with runState := r }

/-- The keyboard state (R32). -/
def State.setKeys (s : State) (pressed : BitVec 16) (last : Option Nibble) : State :=
  { s with pressed := pressed, lastKey := last }

/-- One random byte has been taken (`41_load_alu.md` R133, log 6). -/
def State.takeDraw (s : State) : State := { s with draws := s.draws + 1 }

/-- The turns still to come (log 7). -/
def State.setSchedule (s : State) (ts : List Turn) : State := { s with schedule := ts }

/-- `sp`: the number of stack entries in use (R27). -/
def State.sp (s : State) : Nat := s.stack.length

/-- `stack[i]` for `i < sp`, entry 0 the oldest (R27). -/
def State.stackEntry (s : State) (i : Nat) : Option Word := s.stack.reverse[i]?

/-- `Push(v)` (R27); `none` is its stack fault, on a stack of 16 entries. -/
def push (v : Word) (s : State) : Option State :=
  if s.stack.length < Config.stackDepth then some (s.setStack (v :: s.stack)) else none

/-- `Pop()` (R28); `none` is its stack fault, on an empty stack. -/
def pop (s : State) : Option (Word × State) :=
  match s.stack with
  | [] => none
  | v :: rest => some (v, s.setStack rest)

/-- `pc <- trunc_16(pc + 2)`: the increment of the cycle (`40_flow.md` R100) and `skip` (`00_scope.md` R8). -/
def State.advancePc (s : State) : State := s.setPc (s.pc + 2)

/-- `KeyDown(k)`: key `k` is held (R32). -/
def State.keyHeld (s : State) (k : Nat) : Bool := s.pressed.getLsbD k

/-- The fault of a record's cause code, with the state it leaves (`60_exceptions.md` R201). -/
def faultOf (r : FaultRecord) (final : State) : Fault :=
  match r.code with
  | .bounds => .bounds r final
  | .decode => .decode r final
  | .stack => .stack r final

/-- Fault entry (`60_exceptions.md` R204): `run_state` becomes Faulted(record), nothing else changes, the
machine stops. The state given is the one of R205. -/
def raise (r : FaultRecord) (s : State) : Host.Outcome State Fault Refusal :=
  .fault (faultOf r (s.setRun (.faulted r)))

/-- BoundsFault of a fetch at `pc` (R201, R203, R205): `pc` is the faulting address. -/
def raiseFetch (s : State) : Host.Outcome State Fault Refusal :=
  raise { code := .bounds, addr := s.pc.toNat, len := 2, word := 0, kind := none, ipc := s.pc } s

/-- DecodeFault of the word `w` (R201, R203, R205); `pc` is already advanced, so the instruction stands at `pc - 2`. -/
def raiseDecode (w : Word) (s : State) : Host.Outcome State Fault Refusal :=
  raise { code := .decode, addr := 0, len := 0, word := w, kind := none, ipc := s.pc - 2 } s

/-- BoundsFault inside the handler of `i` (R201, R203, R205): `pc` is already advanced, the executing word is
the word of `i` (log 9). -/
def raiseBounds (i : Instr) (addr len : Nat) (s : State) : Host.Outcome State Fault Refusal :=
  raise { code := .bounds, addr := addr, len := len, word := encodeWord i, kind := none, ipc := s.pc - 2 } s

/-- StackFault inside the handler of `i` (R201, R203, R205). -/
def raiseStack (i : Instr) (kind : StackKind) (s : State) : Host.Outcome State Fault Refusal :=
  raise { code := .stack, addr := 0, len := 0, word := encodeWord i, kind := some kind, ipc := s.pc - 2 } s

/-- Output `sound_active` (`44_keys_timers.md` R190). -/
def State.soundActive (s : State) : Bool := s.ST != 0

/-- Output `awaiting_key` (`10_state.md` R33). -/
def State.awaitingKey (s : State) : Bool :=
  match s.runState with
  | .awaitingKey _ => true
  | .running => false
  | .faulted _ => false

/-- Outputs `fault` and `fault_record` (`60_exceptions.md` R217). -/
def State.faultRecord (s : State) : Option FaultRecord :=
  match s.runState with
  | .faulted r => some r
  | .running => none
  | .awaitingKey _ => none

/-- The number of a cause code (`60_exceptions.md` R201). -/
def FaultCode.number : FaultCode → Nat
  | .bounds => 1
  | .decode => 2
  | .stack => 3

end Sys2Proof.Machine
end

