-- ==== Sys2Proof/Machine/Flags.lean ====
section
/-! DEFINITION. VF as a flag (`10_state.md` R24): the values the flag writers give it, and the order of the two
register writes. -/

namespace Sys2Proof.Machine

/-- The selector of VF (R23, R24). -/
def vf : Nibble := 0xF

/-- A flag as a register value, 0x01 or 0x00 (R24). -/
def flagByte (b : Bool) : Byte := if b then 1 else 0

/-- The carry of an 8-bit sum (`41_load_alu.md` R126). -/
def carryFlag (a b : Byte) : Byte := flagByte (255 < a.toNat + b.toNat)

/-- Not-borrow of `a - b` (`41_load_alu.md` R127, R129). -/
def notBorrowFlag (a b : Byte) : Byte := flagByte (b.toNat ≤ a.toNat)

/-- The bit a right shift by one loses (`41_load_alu.md` R128). -/
def lowBitFlag (b : Byte) : Byte := flagByte (b.getLsbD 0)

/-- The bit a left shift by one loses (`41_load_alu.md` R130). -/
def highBitFlag (b : Byte) : Byte := flagByte (b.getLsbD 7)

/-- Write a result and then the flag, so that the flag wins when `x` is F (R24, log 18). -/
def setResultFlag (s : State) (x : Nibble) (result flag : Byte) : State := (s.setV x result).setV vf flag

end Sys2Proof.Machine
end

