-- ==== Sys2Proof/Machine/Operands.lean ====
section
/-! DEFINITION. The operand forms (`30_encoding.md` R73, `42_index_memory.md` R143): a register `V[x]` is
`State.readV`, `kk` and `n` are used as they are; here stand the widening of `nnn` and of a register, the address
in `I`, the block of registers `V[0]`..`V[x]`, and the key and digit values of a register. -/

namespace Sys2Proof.Machine

/-- `zext_16` (`00_scope.md` R7, R73). -/
def zext16 {w : Nat} (v : BitVec w) : Word := v.setWidth 16

/-- `zext_8` of a key value (`44_keys_timers.md` R183). -/
def zext8 (k : Nibble) : Byte := k.setWidth 8

/-- The effective address of every load and store: `I` as an unsigned number, no masking (R143). -/
def State.address (s : State) : Nat := s.I.toNat

/-- The length of the block `V[0]`..`V[x]` (R73). -/
def blockLen (x : Nibble) : Nat := x.toNat + 1

/-- The values of `n` registers from register `k` upward. -/
def regsFrom (s : State) (k : Nat) : Nat → List Byte
  | 0 => []
  | n + 1 => s.readV (BitVec.ofNat 4 k) :: regsFrom s (k + 1) n

/-- The source block `V[0]`, ..., `V[x]` (`42_index_memory.md` R145). -/
def regBlock (s : State) (x : Nibble) : List Byte := regsFrom s 0 (blockLen x)

/-- Write a list of bytes to the registers from register `k` upward (`42_index_memory.md` R146). -/
def setRegsFrom (s : State) (k : Nat) : List Byte → State
  | [] => s
  | v :: vs => setRegsFrom (s.setV (BitVec.ofNat 4 k) v) (k + 1) vs

/-- The key named by a register value is held; no key is equal to a value above 15 (`44_keys_timers.md` R180, D20). -/
def keyNamedHeld (s : State) (v : Byte) : Bool := v.toNat ≤ 15 && s.keyHeld v.toNat

/-- The glyph address of a register value, `0x50 + v * 5` truncated to 16 bits (`42_index_memory.md` R142). -/
def glyphAddress (v : Byte) : Word := BitVec.ofNat 16 (Config.fontBase + v.toNat * Config.glyphBytes)

/-- The three decimal digits, hundreds first (`42_index_memory.md` R144). -/
def bcdDigits (v : Byte) : List Byte :=
  [BitVec.ofNat 8 (v.toNat / 100), BitVec.ofNat 8 (v.toNat / 10 % 10), BitVec.ofNat 8 (v.toNat % 10)]

end Sys2Proof.Machine
end

