-- ==== Sys2Proof/Machine/Display.lean ====
section
/-! DEFINITION. The display and the sprite compositor (`43_display.md` R160 to R166). -/

namespace Sys2Proof.Machine

/-- The cell at row `r`, column `c`; `false` outside the grid (`10_state.md` R31). -/
def Grid.cell (g : Grid) (r c : Nat) : Bool :=
  if h : r < 32 then (g[r]'h).getLsbD c else false

/-- Invert the cell at row `r`, column `c`. -/
def Grid.toggle (g : Grid) (r c : Nat) : Grid :=
  if h : r < 32 then g.set r (g[r]'h ^^^ BitVec.twoPow 64 c) h else g

/-- All cells 0. -/
def Grid.blank : Grid := Vector.replicate 32 0

/-- Cell by cell exclusive or. -/
def Grid.xor (a b : Grid) : Grid :=
  ⟨⟨List.zipWith (· ^^^ ·) a.toList b.toList⟩, by simp⟩

/-- `00E0` (R160): every pixel that was on changes, so its `dirty` bit toggles; VF and `needs_redraw` stay. -/
def execCls (s : State) : Host.Outcome State Fault Refusal :=
  .next (s.setDisplay Grid.blank (s.dirty.xor s.px))

/-- What a draw in progress holds: the two grids and the collision seen so far (R161). -/
structure Canvas where
  px : Grid
  dirty : Grid
  coll : Bool
  deriving DecidableEq, Repr

/-- A set sprite bit lands on cell `(row, col)` (R161, R164). -/
def plot (row col : Nat) (d : Canvas) : Canvas :=
  { px := d.px.toggle row col, dirty := d.dirty.toggle row col, coll := d.coll || d.px.cell row col }

/-- Sprite bits `7 - c` for `c` from `c` to 7, bit 7 leftmost, columns modulo 64 (R161, R162, R163). -/
def drawBits (vx row : Nat) (b : Byte) : List Nat → Canvas → Canvas
  | [], d => d
  | c :: cs, d =>
    drawBits vx row b cs (if b.getLsbD (7 - c) then plot row ((vx + c) % Config.dispW) d else d)

/-- One sprite byte on row `row`; a row of 32 or more is skipped, not wrapped (R161, R163). -/
def drawRow (vx row : Nat) (b : Byte) (d : Canvas) : Canvas :=
  if row < Config.dispH then drawBits vx row b [0, 1, 2, 3, 4, 5, 6, 7] d else d

/-- The sprite bytes from row `row` downward, first byte on top (R161, R162). -/
def drawSprite (vx row : Nat) : List Byte → Canvas → Canvas
  | [], d => d
  | b :: bs, d => drawSprite vx (row + 1) bs (drawRow vx row b d)

/-- The draw of DRW on the display of a state (R161). -/
def drawOn (s : State) (x y : Nibble) (sprite : List Byte) : Canvas :=
  drawSprite (s.readV x).toNat (s.readV y).toNat sprite { px := s.px, dirty := s.dirty, coll := false }

/-- `Dxyn` (R161): VF is the collision, `needs_redraw` is set. -/
def execDrw (x y n : Nibble) (s : State) : Host.Outcome State Fault Refusal :=
  match memRead s.mem s.address n.toNat with
  | some sprite =>
    .next (((s.setDisplay (drawOn s x y sprite).px (drawOn s x y sprite).dirty).setV vf
      (flagByte (drawOn s x y sprite).coll)).setRedraw true)
  | none => raiseBounds (.drw x y n) s.address n.toNat s

end Sys2Proof.Machine
end

