-- ==== Sys2Proof/Machine/Flow.lean ====
section
/-! DEFINITION. Control transfer (`40_flow.md` R102 to R110). In every meaning `pc` holds the instruction's
address plus 2 (R100). -/

namespace Sys2Proof.Machine

/-- A conditional skip adds a further 2 to `pc` (R105). -/
def skipIf (c : Bool) (s : State) : State := if c then s.advancePc else s

/-- `00EE` (R102). -/
def execRet (s : State) : Host.Outcome State Fault Refusal :=
  match pop s with
  | some (a, t) => .next (t.setPc a)
  | none => raiseStack .ret .underflow s

/-- `1nnn` (R103). -/
def execJp (nnn : Addr12) (s : State) : Host.Outcome State Fault Refusal :=
  .next (s.setPc (zext16 nnn))

/-- `2nnn` (R104): the pushed value is the address of the next instruction. -/
def execCall (nnn : Addr12) (s : State) : Host.Outcome State Fault Refusal :=
  match push s.pc s with
  | some t => .next (t.setPc (zext16 nnn))
  | none => raiseStack (.call nnn) .overflow s

/-- `3xkk` (R105). -/
def execSeImm (x : Nibble) (kk : Byte) (s : State) : Host.Outcome State Fault Refusal :=
  .next (skipIf (s.readV x == kk) s)

/-- `4xkk` (R106). -/
def execSneImm (x : Nibble) (kk : Byte) (s : State) : Host.Outcome State Fault Refusal :=
  .next (skipIf (s.readV x != kk) s)

/-- `5xy0` (R107). -/
def execSeReg (x y : Nibble) (s : State) : Host.Outcome State Fault Refusal :=
  .next (skipIf (s.readV x == s.readV y) s)

/-- `9xy0` (R108). -/
def execSneReg (x y : Nibble) (s : State) : Host.Outcome State Fault Refusal :=
  .next (skipIf (s.readV x != s.readV y) s)

/-- `Bnnn` (R109): the sum is not reduced to 12 bits (log 20). -/
def execJpV0 (nnn : Addr12) (s : State) : Host.Outcome State Fault Refusal :=
  .next (s.setPc (zext16 nnn + zext16 (s.readV 0)))

end Sys2Proof.Machine
end

