-- ==== Sys2Proof/Machine/IndexMemory.lean ====
section
/-! DEFINITION. The index register, loads and stores (`42_index_memory.md` R140 to R146). -/

namespace Sys2Proof.Machine

/-- `Annn` (R140). -/
def execLdI (nnn : Addr12) (s : State) : Host.Outcome State Fault Refusal :=
  .next (s.setI (zext16 nnn))

/-- `Fx1E` (R141): 16-bit wrap-around, no flag. -/
def execAddI (x : Nibble) (s : State) : Host.Outcome State Fault Refusal :=
  .next (s.setI (s.I + zext16 (s.readV x)))

/-- `Fx29` (R142): the whole register enters the formula (log 19). -/
def execLdF (x : Nibble) (s : State) : Host.Outcome State Fault Refusal :=
  .next (s.setI (glyphAddress (s.readV x)))

/-- `Fx33` (R144). -/
def execBcd (x : Nibble) (s : State) : Host.Outcome State Fault Refusal :=
  match memWrite s.mem s.address (bcdDigits (s.readV x)) with
  | some m => .next (s.setMem m)
  | none => raiseBounds (.bcd x) s.address 3 s

/-- `Fx55` (R145): `I` advances by `x + 1` (log 21). -/
def execStRegs (x : Nibble) (s : State) : Host.Outcome State Fault Refusal :=
  match memWrite s.mem s.address (regBlock s x) with
  | some m => .next ((s.setMem m).setI (BitVec.ofNat 16 (s.address + blockLen x)))
  | none => raiseBounds (.stRegs x) s.address (blockLen x) s

/-- `Fx65` (R146): `I` is unchanged (log 21). -/
def execLdRegs (x : Nibble) (s : State) : Host.Outcome State Fault Refusal :=
  match memRead s.mem s.address (blockLen x) with
  | some bs => .next (setRegsFrom s 0 bs)
  | none => raiseBounds (.ldRegs x) s.address (blockLen x) s

end Sys2Proof.Machine
end

