-- ==== Sys2Proof/Machine/KeysTimers.lean ====
section
/-! DEFINITION. Keyboard instructions, the key wait and the timer instructions (`44_keys_timers.md` R180 to R185,
R189). -/

namespace Sys2Proof.Machine

/-- `Ex9E` (R180). -/
def execSkp (x : Nibble) (s : State) : Host.Outcome State Fault Refusal :=
  .next (skipIf (keyNamedHeld s (s.readV x)) s)

/-- `ExA1` (R181). -/
def execSknp (x : Nibble) (s : State) : Host.Outcome State Fault Refusal :=
  .next (skipIf (!keyNamedHeld s (s.readV x)) s)

/-- `Fx0A` (R182): the wait is entered even when a key is held; no register is written. -/
def execLdVxK (x : Nibble) (s : State) : Host.Outcome State Fault Refusal :=
  .next (s.setRun (.awaitingKey x))

/-- The resolution step of the key wait (R183, log 10). -/
def resolveKey (x : Nibble) (s : State) : State :=
  match s.lastKey with
  | some k => if s.keyHeld k.toNat then (s.setV x (zext8 k)).setRun .running else s
  | none => s

/-- `Fx07` (R184). -/
def execLdVxDt (x : Nibble) (s : State) : Host.Outcome State Fault Refusal :=
  .next (s.setV x s.DT)

/-- `Fx15` (R185). -/
def execLdDtVx (x : Nibble) (s : State) : Host.Outcome State Fault Refusal :=
  .next (s.setDT (s.readV x))

/-- `Fx18` (R189). -/
def execLdStVx (x : Nibble) (s : State) : Host.Outcome State Fault Refusal :=
  .next (s.setST (s.readV x))

end Sys2Proof.Machine
end

