-- ==== Sys2Proof/Machine/LoadAlu.lean ====
section
/-! DEFINITION. Load and add immediate, the register ALU and random (`41_load_alu.md` R120 to R133). Arithmetic is
on 8-bit unsigned values and wraps modulo 256 (R131); the operands are read from the state before any write. -/

namespace Sys2Proof.Machine

/-- `6xkk` (R120). -/
def execLdImm (x : Nibble) (kk : Byte) (s : State) : Host.Outcome State Fault Refusal :=
  .next (s.setV x kk)

/-- `7xkk` (R121): no flag. -/
def execAddImm (x : Nibble) (kk : Byte) (s : State) : Host.Outcome State Fault Refusal :=
  .next (s.setV x (s.readV x + kk))

/-- `8xy0` (R122). -/
def execMov (x y : Nibble) (s : State) : Host.Outcome State Fault Refusal :=
  .next (s.setV x (s.readV y))

/-- `8xy1` (R123): VF is cleared. -/
def execOr (x y : Nibble) (s : State) : Host.Outcome State Fault Refusal :=
  .next (setResultFlag s x (s.readV x ||| s.readV y) 0)

/-- `8xy2` (R124): VF is cleared. -/
def execAnd (x y : Nibble) (s : State) : Host.Outcome State Fault Refusal :=
  .next (setResultFlag s x (s.readV x &&& s.readV y) 0)

/-- `8xy3` (R125): VF is cleared. -/
def execXor (x y : Nibble) (s : State) : Host.Outcome State Fault Refusal :=
  .next (setResultFlag s x (s.readV x ^^^ s.readV y) 0)

/-- `8xy4` (R126): VF is the carry. -/
def execAdd (x y : Nibble) (s : State) : Host.Outcome State Fault Refusal :=
  .next (setResultFlag s x (s.readV x + s.readV y) (carryFlag (s.readV x) (s.readV y)))

/-- `8xy5` (R127): VF is not-borrow. -/
def execSub (x y : Nibble) (s : State) : Host.Outcome State Fault Refusal :=
  .next (setResultFlag s x (s.readV x - s.readV y) (notBorrowFlag (s.readV x) (s.readV y)))

/-- `8xy6` (R128): `V[y]` is shifted, VF is the bit shifted out. -/
def execShr (x y : Nibble) (s : State) : Host.Outcome State Fault Refusal :=
  .next (setResultFlag s x (s.readV y >>> 1) (lowBitFlag (s.readV y)))

/-- `8xy7` (R129): the operands reversed. -/
def execSubn (x y : Nibble) (s : State) : Host.Outcome State Fault Refusal :=
  .next (setResultFlag s x (s.readV y - s.readV x) (notBorrowFlag (s.readV y) (s.readV x)))

/-- `8xyE` (R130): `V[y]` is shifted, VF is the bit shifted out. -/
def execShl (x y : Nibble) (s : State) : Host.Outcome State Fault Refusal :=
  .next (setResultFlag s x (s.readV y <<< 1) (highBitFlag (s.readV y)))

/-- `Cxkk` (R132): a free byte (R133, log 6) masked by `kk`; the counter advances, so the next RND takes another. -/
def execRnd (x : Nibble) (kk : Byte) (s : State) : Host.Outcome State Fault Refusal :=
  .next ((s.setV x (Config.draw8 s.draws &&& kk)).takeDraw)

end Sys2Proof.Machine
end

