-- ==== Sys2Proof/Machine/Events.lean ====
section
/-! DEFINITION. What acts on the machine between engine steps (`20_memory.md` R61): timer tick, key events, the
host's operations, program load and reset (`60_exceptions.md` R217). In the Faulted state none of them but reset
changes anything (R204). -/

namespace Sys2Proof.Machine

/-- One timer, one tick: saturating at 0 (`44_keys_timers.md` R188). -/
def tickTimer (t : Byte) : Byte := if 0 < t.toNat then t - 1 else t

/-- `Tick()` on a machine that is not Faulted (`44_keys_timers.md` R188). -/
def tick (s : State) : State := (s.setDT (tickTimer s.DT)).setST (tickTimer s.ST)

/-- `KeyDownEvent(k)` (`44_keys_timers.md` R186): also for a key already held. -/
def keyDown (k : Nibble) (s : State) : State :=
  s.setKeys (s.pressed ||| BitVec.twoPow 16 k.toNat) (some k)

/-- `KeyUpEvent(k)` (`44_keys_timers.md` R187): `last_key` stays. -/
def keyUp (k : Nibble) (s : State) : State :=
  s.setKeys (s.pressed &&& ~~~(BitVec.twoPow 16 k.toNat)) s.lastKey

/-- `ClearRedraw()` (`43_display.md` R167). -/
def clearRedraw (s : State) : State := s.setRedraw false

/-- What `Present(buf)` changes in the machine: `dirty` becomes all 0 (`43_display.md` R168). -/
def presentState (s : State) : State := s.setDisplay s.px Grid.blank

/-- The machine is in the terminal Faulted state (`60_exceptions.md` R204). -/
def State.isFaulted (s : State) : Bool := s.faultRecord.isSome

/-- One external event as one atomic transition (`20_memory.md` R61); in Faulted nothing changes (R204). -/
def applyEvent (e : Event) (s : State) : State :=
  if s.isFaulted then s else
    match e with
    | .tick => tick s
    | .keyDown k => keyDown k s
    | .keyUp k => keyUp k s
    | .clearRedraw => clearRedraw s
    | .present => presentState s

/-- The event of a key transition reported by a number: an identifier that is none of the 16 values produces no
event (`44_keys_timers.md` R191). -/
def keyEventOf (down : Bool) (id : Nat) : Option Event :=
  if WellFormed.keyId id then
    some (if down then .keyDown (BitVec.ofNat 4 id) else .keyUp (BitVec.ofNat 4 id))
  else none

/-- The block of cell `(r, c)` in the host's buffer takes the complement of its first pixel's intensity
(`43_display.md` R168); the buffer is the host's, indexed by its row and column. -/
def invertBlock {Intensity : Type} (scale : Nat) (complement : Intensity → Intensity) (r c : Nat)
    (buf : Nat → Nat → Intensity) : Nat → Nat → Intensity :=
  fun row col =>
    if r * scale ≤ row ∧ row < r * scale + scale ∧ c * scale ≤ col ∧ col < c * scale + scale then
      complement (buf (r * scale) (c * scale))
    else buf row col

/-- The cells of row `r` in the given columns: the blocks of the changed ones are inverted (R168). -/
def presentRow {Intensity : Type} (scale : Nat) (complement : Intensity → Intensity) (dirty : Grid) (r : Nat) :
    List Nat → (Nat → Nat → Intensity) → (Nat → Nat → Intensity)
  | [], buf => buf
  | c :: cs, buf =>
    presentRow scale complement dirty r cs (if dirty.cell r c then invertBlock scale complement r c buf else buf)

/-- The cells of the given rows (R168). -/
def presentRows {Intensity : Type} (scale : Nat) (complement : Intensity → Intensity) (dirty : Grid) :
    List Nat → (Nat → Nat → Intensity) → (Nat → Nat → Intensity)
  | [], buf => buf
  | r :: rs, buf =>
    presentRows scale complement dirty rs
      (presentRow scale complement dirty r (List.range Config.dispW) buf)

/-- What `Present(buf)` makes of the host's buffer (`43_display.md` R168); `scale`, `Intensity` and `complement`
are the open parameters of `00_scope.md` R5 (log 12). In Faulted nothing changes (R204). -/
def presentBuffer {Intensity : Type} (scale : Nat) (complement : Intensity → Intensity) (s : State)
    (buf : Nat → Nat → Intensity) : Nat → Nat → Intensity :=
  if s.isFaulted then buf else presentRows scale complement s.dirty (List.range Config.dispH) buf

/-- `LoadProgram(bytes)` (`70_reset_and_hazards.md` R236): the stream goes to 0x200 upward or, when it is too long,
the bounds fault of R203 is raised and nothing is written. -/
def loadProgram (bytes : List Byte) (s : State) : Host.Outcome State Fault Refusal :=
  match s.runState with
  | .faulted r => .fault (faultOf r s)
  | _ =>
    match memWrite s.mem Config.progBase bytes with
    | some m => .next (s.setMem m)
    | none =>
      raise { code := .bounds, addr := Config.progBase, len := bytes.length, word := 0, kind := none, ipc := s.pc } s

/-- `Reset()` (`70_reset_and_hazards.md` R230): every piece of the spec's state at its reset value, Faulted or
not; the model's own counter and schedule go on (log 17). -/
def resetOp (s : State) : State := { State.reset with draws := s.draws, schedule := s.schedule }

/-- The boot sequence before the first step (`70_reset_and_hazards.md` R235). -/
def boot (bytes : List Byte) : Host.Outcome State Fault Refusal := loadProgram bytes State.reset

end Sys2Proof.Machine
end

