-- ==== Sys2Proof/Machine/Engine.lean ====
section
/-! DEFINITION. The engine's step (`40_flow.md` R100, R101) and whose turn it is (`20_memory.md` R61). -/

namespace Sys2Proof.Machine

/-- One step in Running (R100): fetch with its bounds check, decode, `pc += 2`, dispatch, execute. -/
def fetchExecute (s : State) : Host.Outcome State Fault Refusal :=
  match memRead s.mem s.pc.toNat 2 with
  | some bytes =>
    match decode bytes with
    | .instr i _ => exec i s.advancePc
    | .illegal w => raiseDecode w s.advancePc
    | .truncated => raiseFetch s
  | none => raiseFetch s

/-- `Step()` in each run state (R100, R101): in AwaitingKey only the resolution of R183; in Faulted there is no
step, the machine stays stopped with the same record and the same state (`60_exceptions.md` R204, log 8). -/
def engineStep (s : State) : Host.Outcome State Fault Refusal :=
  match s.runState with
  | .running => fetchExecute s
  | .awaitingKey x => .next (resolveKey x s)
  | .faulted r => .fault (faultOf r s)

/-- One transition of the machine: the head of `schedule` says whether the engine moves or an external event
happens; with an empty schedule the engine moves (`20_memory.md` R61, log 7). -/
def takeTurn (s : State) : Host.Outcome State Fault Refusal :=
  match s.runState, s.schedule with
  | .faulted r, _ => .fault (faultOf r s)
  | _, [] => engineStep s
  | _, .engine :: rest => engineStep (s.setSchedule rest)
  | _, .event e :: rest => .next (applyEvent e (s.setSchedule rest))

/-- Where the next instruction is fetched: `pc`, or the entry point where `pc` is out of range (log 13). -/
def fetchPlace (s : State) : Word := if inBounds s.pc.toNat 2 then s.pc else Config.pcReset

end Sys2Proof.Machine
end

