-- ==== Sys2Proof/Machine/Step.lean ====
section
/-! DEFINITION. The step of the machine, and the placing of one instruction where the step fetches next. -/

namespace Sys2Proof.Machine

/-- One transition of the machine (`40_flow.md` R100, R101, `20_memory.md` R61). -/
def step (s : State) : Host.Outcome State Fault Refusal := takeTurn s

/-- `s` with the instruction word `w` stored where the next step fetches, so that this step runs it (log 13): the
engine is Running, it is its turn, and `pc` is moved to the entry point only where a fetch at `pc` would fault. -/
def State.withFetchWord (s : State) (nbits w : Nat) : State :=
  { s with
    mem := s.mem.writeBytes (fetchPlace s).toNat (bytesOfWord (BitVec.ofNat 16 (w % 2 ^ nbits)))
    pc := fetchPlace s
    runState := .running
    schedule := [] }

end Sys2Proof.Machine
end

