-- ==== Sys2Proof/Safety.lean ====
section
/-! DEFINITION. The terms claims are stated in: whose turn it is and which instruction comes next, the record and
the state of a fault, the invariant of the machine, reachability, and relations between states. -/

namespace Sys2Proof.Machine

/-- The engine moves next (`20_memory.md` R61, log 7). -/
def State.isEngineTurn (s : State) : Bool :=
  match s.schedule with
  | [] => true
  | .engine :: _ => true
  | .event _ :: _ => false

/-- The state with the turn that is being taken off the schedule; the rest of the machine as it is. -/
def State.turnTaken (s : State) : State := s.setSchedule s.schedule.tail

/-- The word at `pc`, first byte high (`20_memory.md` R54). -/
def State.fetchedWord (s : State) : Word :=
  wordOfBytes (s.mem.readByte s.pc.toNat) (s.mem.readByte (s.pc.toNat + 1))

/-- The step about to be taken is a fetch that passes its bounds check (`40_flow.md` R100). -/
def State.fetches (s : State) : Bool :=
  s.runState == .running && s.isEngineTurn && decide (s.pc.toNat + 2 ≤ Config.memSize)

/-- The instruction the next step executes, if it executes one. -/
def State.nextInstr (s : State) : Option Instr := if s.fetches then decodeWord s.fetchedWord else none

/-- The record of a fault (`60_exceptions.md` R203). -/
def Fault.record : Fault → FaultRecord
  | .bounds r _ => r
  | .decode r _ => r
  | .stack r _ => r

/-- The state a fault leaves (`60_exceptions.md` R205). -/
def Fault.final : Fault → State
  | .bounds _ s => s
  | .decode _ s => s
  | .stack _ s => s

/-- What every state of a run satisfies: memory in canonical form, at most 16 stack entries (`10_state.md` R27),
return addresses and `pc` in the ranges of `10_state.md` R26 and `40_flow.md` R109. -/
structure State.Inv (s : State) : Prop where
  mem : s.mem.wf
  depth : s.stack.length ≤ 16
  returns : ∀ a ∈ s.stack, a.toNat ≤ 0x1000
  pc : s.pc.toNat ≤ 0x10FE

/-- `t` comes from `s` by transitions that each answer a next state. -/
inductive Reaches : State → State → Prop where
  | refl (s : State) : Reaches s s
  | tail {s t u : State} : Reaches s t → step t = .next u → Reaches s u

/-- A run of `k` transitions from `s` that neither faults nor is refused. -/
def SafeFor : Nat → State → Prop
  | 0, _ => True
  | k + 1, s => ∃ t, step s = .next t ∧ SafeFor k t

/-- Every byte of memory reads in `t` as in `s`. -/
def SameMemory (s t : State) : Prop := ∀ a, t.mem.readByte a = s.mem.readByte a

/-- Every byte of memory outside `n` bytes at `a` reads in `t` as in `s`. -/
def SameMemoryOutside (a n : Nat) (s t : State) : Prop :=
  ∀ b, (b < a ∨ a + n ≤ b) → t.mem.readByte b = s.mem.readByte b

/-- `t` differs from `s` in the general registers at most. -/
def OnlyV (s t : State) : Prop := t = { s with V := t.V } ∧ SameMemory s t

/-- `t` differs from `s` in `pc` at most. -/
def OnlyPc (s t : State) : Prop := t = { s with pc := t.pc } ∧ SameMemory s t

/-- `t` differs from `s` in the two timers at most. -/
def SameButTimers (s t : State) : Prop := t = { s with DT := t.DT, ST := t.ST }

/-- `t` differs from `s` at most in what only the host reads: `ST`, `dirty`, `needs_redraw`. -/
def SameButOutputs (s t : State) : Prop :=
  t = { s with ST := t.ST, dirty := t.dirty, needsRedraw := t.needsRedraw }

/-- Two outcomes that tell related states and otherwise the same. -/
def SameOutcome (R : State → State → Prop) :
    Host.Outcome State Fault Refusal → Host.Outcome State Fault Refusal → Prop
  | .next s, .next t => R s t
  | .fault f, .fault g => f.record = g.record ∧ R f.final g.final
  | .refused r, .refused q => r = q
  | _, _ => False

/-- A set bit of the sprite of `DRW Vx, Vy, n` lands on pixel `(r, c)` (`43_display.md` R161 to R163): the sprite's
row `r - Vy` is the byte at `I + (r - Vy)`, its bit `7 - j` stands at column `(Vx + j) mod 64`. -/
def SpriteCovers (s : State) (x y n : Nibble) (r c : Nat) : Prop :=
  r < 32 ∧ c < 64 ∧ (s.readV y).toNat ≤ r ∧ r < (s.readV y).toNat + n.toNat ∧
    ∃ j, j < 8 ∧ c = ((s.readV x).toNat + j) % 64 ∧
      (s.mem.readByte (s.I.toNat + (r - (s.readV y).toNat))).getLsbD (7 - j) = true

/-- The instructions that write VF as a flag (`10_state.md` R24). -/
def writesFlag : Instr → Bool
  | .or _ _ | .and _ _ | .xor _ _ | .add _ _ | .sub _ _ | .shr _ _ | .subn _ _ | .shl _ _ | .drw _ _ _ => true
  | _ => false

/-- The general register `r` is named by the instruction as a destination (`10_state.md` R23, `41_load_alu.md`,
`42_index_memory.md` R146, `44_keys_timers.md` R184). -/
def namesDestination (r : Nibble) : Instr → Bool
  | .ldImm x _ | .addImm x _ | .rnd x _ | .ldVxDt x => r == x
  | .mov x _ | .or x _ | .and x _ | .xor x _ | .add x _ | .sub x _ | .shr x _ | .subn x _ | .shl x _ => r == x
  | .ldRegs x => r.toNat ≤ x.toNat
  | _ => false

end Sys2Proof.Machine
end

