-- ==== Sys2Proof/Certificates/Slice0/Obligations.lean ====
section
/-! DEFINITION. The statements for the provers. A docstring names the rules of spec/ a statement formalises; where a
clause rests on a decision of the spec (D<n> of 92_eei_decisions.md), on a passage the spec supplies from general
knowledge, or on a choice of the model, it says so and names the log entry (notes/assumptions). -/

open Sys2Proof Sys2Proof.Machine

/-! Encoding -/

/-- Words of each of the 16 families (the opcode nibble, `00_scope.md` R12), and words outside the map, written out
from `30_encoding.md` R80, R82 and the lists of `95_test_vectors.md` 2.7. The opcode numbers marked G there are general
knowledge (D5), the strict match is D3, 0nnn as a decode fault D4 (log 4); the byte order D1 (log 3). -/
def Obligations.WordsOfEachFamilyDecode : Prop :=
  decode [0x00, 0xE0] = .instr .cls [] ∧ decode [0x00, 0xEE] = .instr .ret [] ∧
  decode [0x1A, 0xBC] = .instr (.jp 0xABC) [] ∧ decode [0x2A, 0xBC] = .instr (.call 0xABC) [] ∧
  decode [0x31, 0x42] = .instr (.seImm 0x1 0x42) [] ∧ decode [0x4B, 0x42] = .instr (.sneImm 0xB 0x42) [] ∧
  decode [0x51, 0x20] = .instr (.seReg 0x1 0x2) [] ∧ decode [0x7A, 0x01] = .instr (.addImm 0xA 0x01) [] ∧
  decode [0x91, 0x20] = .instr (.sneReg 0x1 0x2) [] ∧
  decode [0xB3, 0x00] = .instr (.jpV0 0x300) [] ∧ decode [0x6A, 0x7F] = .instr (.ldImm 0xA 0x7F) [] ∧
  decode [0x8A, 0xB4] = .instr (.add 0xA 0xB) [] ∧ decode [0x81, 0x2E] = .instr (.shl 0x1 0x2) [] ∧
  decode [0xC3, 0x0F] = .instr (.rnd 0x3 0x0F) [] ∧ decode [0xA3, 0x00] = .instr (.ldI 0x300) [] ∧
  decode [0xF2, 0x65] = .instr (.ldRegs 0x2) [] ∧ decode [0xF0, 0x33] = .instr (.bcd 0x0) [] ∧
  decode [0xD1, 0x2A] = .instr (.drw 0x1 0x2 0xA) [] ∧ decode [0xE1, 0x9E] = .instr (.skp 0x1) [] ∧
  decode [0xF3, 0x0A] = .instr (.ldVxK 0x3) [] ∧ decode [0xF2, 0x15] = .instr (.ldDtVx 0x2) [] ∧
  decode [0x00, 0x00] = .illegal 0x0000 ∧ decode [0x01, 0xE0] = .illegal 0x01E0 ∧
  decode [0x51, 0x21] = .illegal 0x5121 ∧ decode [0x81, 0x28] = .illegal 0x8128 ∧
  decode [0xE0, 0xA0] = .illegal 0xE0A0 ∧ decode [0xF0, 0x75] = .illegal 0xF075

/-- Decoding what was encoded gives the instruction back, with every operand (`30_encoding.md` R71, R72, R80). -/
def Obligations.DecodeOfEncodeIsTheInstruction : Prop :=
  ∀ (i : Instr) (rest : List Byte), decode (encode i ++ rest) = .instr i rest

/-- Every word that decodes is the encoding of what it decodes to, so an instruction has one word
(`30_encoding.md` R80: no word selects two rows). -/
def Obligations.EncodeOfDecodeIsTheWord : Prop :=
  ∀ (b0 b1 : Byte) (rest rest' : List Byte) (i : Instr),
    decode (b0 :: b1 :: rest) = .instr i rest' → encode i = [b0, b1] ∧ rest' = rest

/-- Decoding is total and strict (`30_encoding.md` R80 to R83): a word is a decode fault exactly when it matches none
of the 34 (mask, match) pairs, written out here from R80, and no word matches two of them. Numbers marked G: D5;
strictness: D3 (log 4). -/
def Obligations.DecodesExactlyTheOpcodeMap : Prop :=
  let pairs : List (Word × Word) :=
    [(0xFFFF, 0x00E0), (0xFFFF, 0x00EE), (0xF000, 0x1000), (0xF000, 0x2000), (0xF000, 0x3000), (0xF000, 0x4000),
     (0xF00F, 0x5000), (0xF000, 0x6000), (0xF000, 0x7000), (0xF00F, 0x8000), (0xF00F, 0x8001), (0xF00F, 0x8002)] ++
    [(0xF00F, 0x8003), (0xF00F, 0x8004), (0xF00F, 0x8005), (0xF00F, 0x8006), (0xF00F, 0x8007), (0xF00F, 0x800E),
     (0xF00F, 0x9000), (0xF000, 0xA000), (0xF000, 0xB000), (0xF000, 0xC000), (0xF000, 0xD000)] ++
    [(0xF0FF, 0xE09E), (0xF0FF, 0xE0A1), (0xF0FF, 0xF007), (0xF0FF, 0xF00A), (0xF0FF, 0xF015), (0xF0FF, 0xF018),
     (0xF0FF, 0xF01E), (0xF0FF, 0xF029), (0xF0FF, 0xF033), (0xF0FF, 0xF055), (0xF0FF, 0xF065)]
  (∀ w : Word, decodeWord w = none ↔ ∀ p ∈ pairs, w &&& p.1 ≠ p.2) ∧
  (∀ (w : Word) (j k : Nat) (p q : Word × Word), pairs[j]? = some p → pairs[k]? = some q →
    w &&& p.1 = p.2 → w &&& q.1 = q.2 → j = k)

/-! The step -/

/-- A step in Running, on the engine's turn, runs the instruction that the two bytes at `pc` decode to, with `pc`
already advanced by 2 (`40_flow.md` R100). The turn taken off `schedule` is the model's (log 7). -/
def Obligations.StepRunsDecodedInstruction : Prop :=
  ∀ (s : State) (i : Instr), s.runState = .running → s.isEngineTurn = true → s.pc.toNat + 2 ≤ 4096 →
    decode [s.mem.readByte s.pc.toNat, s.mem.readByte (s.pc.toNat + 1)] = .instr i [] →
    step s = exec i { s with pc := s.pc + 2, schedule := s.schedule.tail }

/-- A fetch above 0xFFE is a bounds fault that changes nothing but `run_state` (`20_memory.md` R55, `60_exceptions.md`
R203, R205). The record's fields and the state at the fault are D18 and D14 (log 8). -/
def Obligations.FetchOutOfBoundsFaults : Prop :=
  ∀ s : State, s.runState = .running → s.isEngineTurn = true → 4096 < s.pc.toNat + 2 →
    let r : FaultRecord := ⟨.bounds, s.pc.toNat, 2, 0, none, s.pc⟩
    step s = .fault (.bounds r { s with runState := .faulted r, schedule := s.schedule.tail })

/-- A word outside the opcode map is a decode fault with `pc` advanced by 2 and nothing else changed
(`30_encoding.md` R81, `60_exceptions.md` R203, R205; D3, D14, D18, logs 4 and 8). -/
def Obligations.IllegalWordFaults : Prop :=
  ∀ (s : State) (w : Word), s.runState = .running → s.isEngineTurn = true → s.pc.toNat + 2 ≤ 4096 →
    decode [s.mem.readByte s.pc.toNat, s.mem.readByte (s.pc.toNat + 1)] = .illegal w →
    let r : FaultRecord := ⟨.decode, 0, 0, w, none, s.pc⟩
    step s = .fault (.decode r { s with pc := s.pc + 2, runState := .faulted r, schedule := s.schedule.tail })

/-- Faults are precise (`60_exceptions.md` R203, R205): whatever step faults, the state it leaves differs from the
one before in `run_state`, and in `pc` advanced by 2 where the fetch was in bounds, and in nothing else; the record
names the address of the instruction and its word (0 for a fetch fault). D14, D18 (logs 8, 9). -/
def Obligations.FaultsLeaveAllElseUnchanged : Prop :=
  ∀ (s : State) (f : Fault), (∀ r, s.runState ≠ .faulted r) → step s = .fault f →
    f.final = { s with
      pc := if s.pc.toNat + 2 ≤ 4096 then s.pc + 2 else s.pc
      runState := .faulted f.record
      schedule := s.schedule.tail } ∧
    f.record.ipc = s.pc ∧ f.record.word = if s.pc.toNat + 2 ≤ 4096 then s.fetchedWord else 0

/-- Which step raises what, in full (`60_exceptions.md` R201, R202): a machine that is not Faulted faults only by
one of these causes, with this record. D7, D18 (logs 5, 8). -/
def Obligations.OnlyTheseCausesFault : Prop :=
  ∀ (s : State) (f : Fault), (∀ r, s.runState ≠ .faulted r) → step s = .fault f →
    s.runState = .running ∧
    ((4096 < s.pc.toNat + 2 ∧ f.record = ⟨.bounds, s.pc.toNat, 2, 0, none, s.pc⟩) ∨
     (s.fetches = true ∧ decodeWord s.fetchedWord = none ∧ f.record = ⟨.decode, 0, 0, s.fetchedWord, none, s.pc⟩) ∨
     (s.nextInstr = some .ret ∧ s.stack = [] ∧
       f.record = ⟨.stack, 0, 0, s.fetchedWord, some .underflow, s.pc⟩) ∨
     (∃ nnn, s.nextInstr = some (.call nnn) ∧ 16 ≤ s.stack.length ∧
       f.record = ⟨.stack, 0, 0, s.fetchedWord, some .overflow, s.pc⟩) ∨
     (∃ x y n, s.nextInstr = some (.drw x y n) ∧ 4096 < s.I.toNat + n.toNat ∧
       f.record = ⟨.bounds, s.I.toNat, n.toNat, s.fetchedWord, none, s.pc⟩) ∨
     (∃ x, s.nextInstr = some (.bcd x) ∧ 4096 < s.I.toNat + 3 ∧
       f.record = ⟨.bounds, s.I.toNat, 3, s.fetchedWord, none, s.pc⟩) ∨
     (∃ x, (s.nextInstr = some (.stRegs x) ∨ s.nextInstr = some (.ldRegs x)) ∧ 4096 < s.I.toNat + (x.toNat + 1) ∧
       f.record = ⟨.bounds, s.I.toNat, x.toNat + 1, s.fetchedWord, none, s.pc⟩))

/-- A step always answers: it is never refused, and in Running it ends in a next state or in a fault
(`70_reset_and_hazards.md` R246, `30_encoding.md` R81). -/
def Obligations.StepIsNeverRefused : Prop :=
  ∀ s : State, (∃ t, step s = .next t) ∨ (∃ f, step s = .fault f)

/-- Faulted is terminal (`60_exceptions.md` R204, `40_flow.md` R101): no step, event or host operation changes the
state; reset leaves it. D18 (log 8); what reset keeps of the model's own fields is log 17. -/
def Obligations.FaultedIsTerminal : Prop :=
  ∀ (s : State) (r : FaultRecord), s.runState = .faulted r →
    (∃ f, step s = .fault f ∧ f.final = s ∧ f.record = r) ∧ (∀ e, applyEvent e s = s) ∧
    (∀ bytes, ∃ f, loadProgram bytes s = .fault f ∧ f.final = s) ∧
    (∀ (Intensity : Type) (scale : Nat) (complement : Intensity → Intensity) (buf : Nat → Nat → Intensity),
      presentBuffer scale complement s buf = buf) ∧
    (resetOp s).runState = .running

/-- In AwaitingKey a step on the engine's turn fetches nothing and leaves `pc`: it resolves the wait with the most
recently pressed key while that key is held, or changes nothing (`44_keys_timers.md` R183, `40_flow.md` R101). Which
key counts is the spec's decision D15 (log 10). -/
def Obligations.KeyWaitStepResolvesOrWaits : Prop :=
  ∀ (s : State) (x : Nibble), s.runState = .awaitingKey x → s.isEngineTurn = true →
    (∀ k : Nibble, s.lastKey = some k → s.keyHeld k.toNat = true →
      ∃ t, step s = .next t ∧ (∀ r, t.readV r = if r = x then BitVec.ofNat 8 k.toNat else s.readV r) ∧
        t = { s with V := t.V, runState := .running, schedule := s.schedule.tail } ∧ SameMemory s t) ∧
    ((∀ k : Nibble, s.lastKey = some k → s.keyHeld k.toNat = false) →
      step s = .next { s with schedule := s.schedule.tail })

/-- On an event's turn the engine does not move and the event happens (`20_memory.md` R61, D29): the step is
`applyEvent`, which changes timers, keys, `dirty` or `needs_redraw` at most. ClearRedraw clears `needs_redraw`
(`43_display.md` R167, D23) and Present clears `dirty` (R168, D22, log 12), and neither changes anything else.
`schedule` is the model's (log 7). -/
def Obligations.EventTurnLeavesTheEngineAlone : Prop :=
  ∀ (s : State) (e : Event) (rest : List Turn), (∀ r, s.runState ≠ .faulted r) → s.schedule = .event e :: rest →
    ∃ t, step s = .next t ∧ t = applyEvent e { s with schedule := rest } ∧
      t = { s with
        DT := t.DT, ST := t.ST, dirty := t.dirty, needsRedraw := t.needsRedraw, pressed := t.pressed
        lastKey := t.lastKey, schedule := rest } ∧ SameMemory s t ∧
      (e = .clearRedraw → t = { s with needsRedraw := false, schedule := rest }) ∧
      (e = .present → (∀ r c, t.dirty.cell r c = false) ∧ t = { s with dirty := t.dirty, schedule := rest })

/-! Control transfer -/

/-- R103 whole: the encoding, the new `pc`, no other effect and no fault, and when the next fetch is out of range. -/
def Obligations.JumpSetsPc : Prop :=
  ∀ (nnn : Addr12) (s : State),
    decodeWord (BitVec.ofNat 16 (0x1000 + nnn.toNat)) = some (.jp nnn) ∧
    ∃ t, exec (.jp nnn) s = .next t ∧ t.pc.toNat = nnn.toNat ∧ OnlyPc s t ∧
      (memRead t.mem t.pc.toNat 2 = none ↔ nnn = 0xFFF)

/-- JP V0 (`40_flow.md` R109): the sum is not reduced to 12 bits, which is the spec's decision D26 (log 20). -/
def Obligations.JumpV0AddsRegisterZero : Prop :=
  ∀ (nnn : Addr12) (s : State), ∃ t, exec (.jpV0 nnn) s = .next t ∧
    t.pc.toNat = nnn.toNat + (s.readV 0).toNat ∧ OnlyPc s t

/-- CALL (`40_flow.md` R104, `10_state.md` R27): pushes the `pc` the handler sees and jumps; on a stack of 16 entries
or more it faults, which is the spec's decision D7 (log 5), with the record of D18. -/
def Obligations.CallPushesReturnAddress : Prop :=
  ∀ (nnn : Addr12) (s : State),
    (s.stack.length < 16 →
      ∃ t, exec (.call nnn) s = .next t ∧ t.stack = s.pc :: s.stack ∧ t.pc.toNat = nnn.toNat ∧
        t = { s with stack := t.stack, pc := t.pc } ∧ SameMemory s t) ∧
    (16 ≤ s.stack.length →
      let r : FaultRecord := ⟨.stack, 0, 0, encodeWord (.call nnn), some .overflow, s.pc - 2⟩
      exec (.call nnn) s = .fault (.stack r { s with runState := .faulted r }))

/-- RET (`40_flow.md` R102, `10_state.md` R28): pops the newest entry into `pc`; on an empty stack it faults, with
the record of D18 (log 8). -/
def Obligations.ReturnPopsIntoPc : Prop :=
  (∀ (s : State) (a : Word) (rest : List Word), s.stack = a :: rest →
    ∃ t, exec .ret s = .next t ∧ t.pc = a ∧ t.stack = rest ∧
      t = { s with stack := t.stack, pc := t.pc } ∧ SameMemory s t) ∧
  (∀ s : State, s.stack = [] →
    let r : FaultRecord := ⟨.stack, 0, 0, encodeWord .ret, some .underflow, s.pc - 2⟩
    exec .ret s = .fault (.stack r { s with runState := .faulted r }))

/-- The four register and immediate skips (`40_flow.md` R105 to R108): a further 2 on `pc` when the condition holds,
nothing otherwise. -/
def Obligations.ComparisonSkips : Prop :=
  ∀ (x y : Nibble) (kk : Byte) (s : State), ∃ t1 t2 t3 t4,
    exec (.seImm x kk) s = .next t1 ∧ exec (.sneImm x kk) s = .next t2 ∧
    exec (.seReg x y) s = .next t3 ∧ exec (.sneReg x y) s = .next t4 ∧
    t1.pc = (if s.readV x = kk then s.pc + 2 else s.pc) ∧ t2.pc = (if s.readV x = kk then s.pc else s.pc + 2) ∧
    t3.pc = (if s.readV x = s.readV y then s.pc + 2 else s.pc) ∧
    t4.pc = (if s.readV x = s.readV y then s.pc else s.pc + 2) ∧
    OnlyPc s t1 ∧ OnlyPc s t2 ∧ OnlyPc s t3 ∧ OnlyPc s t4

/-- A CALL followed by a RET comes back: `pc` and the stack are as they were (`95_test_vectors.md` S6). -/
def Obligations.ReturnUndoesCall : Prop :=
  ∀ (nnn : Addr12) (s : State), s.stack.length < 16 →
    ∃ t u, exec (.call nnn) s = .next t ∧ exec .ret t = .next u ∧ u = s

/-- `pc` stays even for a program whose targets are even (`70_reset_and_hazards.md` R242, which the spec derives; D2,
log 20): the evenness of `pc` and of the return addresses is kept by every step whose jump, call or JP V0 target is
even. -/
def Obligations.EvenPcIsKept : Prop :=
  ∀ s t : State, step s = .next t → s.pc.toNat % 2 = 0 → (∀ a ∈ s.stack, a.toNat % 2 = 0) →
    (∀ nnn, s.nextInstr = some (.jp nnn) ∨ s.nextInstr = some (.call nnn) → nnn.toNat % 2 = 0) →
    (∀ nnn, s.nextInstr = some (.jpV0 nnn) → (nnn.toNat + (s.readV 0).toNat) % 2 = 0) →
    t.pc.toNat % 2 = 0 ∧ ∀ a ∈ t.stack, a.toNat % 2 = 0

/-! Load, ALU, random -/

/-- LD Vx, kk; ADD Vx, kk; MOV Vx, Vy (`41_load_alu.md` R120 to R122): no flag is written. -/
def Obligations.LoadsAndImmediateAdd : Prop :=
  ∀ (x y : Nibble) (kk : Byte) (s : State), ∃ t1 t2 t3,
    exec (.ldImm x kk) s = .next t1 ∧ exec (.addImm x kk) s = .next t2 ∧ exec (.mov x y) s = .next t3 ∧
    (∀ r, t1.readV r = if r = x then kk else s.readV r) ∧
    (∀ r, (t2.readV r).toNat = if r = x then ((s.readV x).toNat + kk.toNat) % 256 else (s.readV r).toNat) ∧
    (∀ r, t3.readV r = if r = x then s.readV y else s.readV r) ∧
    OnlyV s t1 ∧ OnlyV s t2 ∧ OnlyV s t3

/-- OR, AND, XOR (`41_load_alu.md` R123 to R125): the result, and VF cleared last, so VF is 0 for `x` = F too
(D6, log 18). -/
def Obligations.LogicalOperationsClearVF : Prop :=
  ∀ (x y : Nibble) (s : State), ∃ t1 t2 t3,
    exec (.or x y) s = .next t1 ∧ exec (.and x y) s = .next t2 ∧ exec (.xor x y) s = .next t3 ∧
    (∀ r, t1.readV r = if r = 0xF then 0 else if r = x then s.readV x ||| s.readV y else s.readV r) ∧
    (∀ r, t2.readV r = if r = 0xF then 0 else if r = x then s.readV x &&& s.readV y else s.readV r) ∧
    (∀ r, t3.readV r = if r = 0xF then 0 else if r = x then s.readV x ^^^ s.readV y else s.readV r) ∧
    OnlyV s t1 ∧ OnlyV s t2 ∧ OnlyV s t3

/-- ADD Vx, Vy (`41_load_alu.md` R126): the sum modulo 256 and the carry; for `x` = F the carry wins (D6, log 18). -/
def Obligations.AddSetsSumAndCarry : Prop :=
  ∀ (x y : Nibble) (s : State), ∃ t, exec (.add x y) s = .next t ∧ OnlyV s t ∧
    t.readV 0xF = (if 255 < (s.readV x).toNat + (s.readV y).toNat then 1 else 0) ∧
    (x ≠ 0xF → (t.readV x).toNat = ((s.readV x).toNat + (s.readV y).toNat) % 256) ∧
    (∀ r, r ≠ x → r ≠ 0xF → t.readV r = s.readV r)

/-- SUB and SUBN (`41_load_alu.md` R127, R129): the difference modulo 256 and not-borrow; for `x` = F the flag wins
(D6, log 18). -/
def Obligations.SubtractionsSetDifferenceAndNotBorrow : Prop :=
  ∀ (x y : Nibble) (s : State), ∃ t1 t2, exec (.sub x y) s = .next t1 ∧ exec (.subn x y) s = .next t2 ∧
    OnlyV s t1 ∧ OnlyV s t2 ∧
    t1.readV 0xF = (if (s.readV y).toNat ≤ (s.readV x).toNat then 1 else 0) ∧
    t2.readV 0xF = (if (s.readV x).toNat ≤ (s.readV y).toNat then 1 else 0) ∧
    (x ≠ 0xF → (t1.readV x).toNat = ((s.readV x).toNat + 256 - (s.readV y).toNat) % 256 ∧
      (t2.readV x).toNat = ((s.readV y).toNat + 256 - (s.readV x).toNat) % 256) ∧
    (∀ r, r ≠ x → r ≠ 0xF → t1.readV r = s.readV r ∧ t2.readV r = s.readV r)

/-- SHR and SHL (`41_load_alu.md` R128, R130): `V[y]` is shifted by one, VF is the bit shifted out; for `x` = F the
flag wins (D6, log 18). -/
def Obligations.ShiftsMoveVyByOne : Prop :=
  ∀ (x y : Nibble) (s : State), ∃ t1 t2, exec (.shr x y) s = .next t1 ∧ exec (.shl x y) s = .next t2 ∧
    OnlyV s t1 ∧ OnlyV s t2 ∧
    (t1.readV 0xF).toNat = (s.readV y).toNat % 2 ∧ (t2.readV 0xF).toNat = (s.readV y).toNat / 128 ∧
    (x ≠ 0xF → (t1.readV x).toNat = (s.readV y).toNat / 2 ∧ (t2.readV x).toNat = (s.readV y).toNat * 2 % 256) ∧
    (∀ r, r ≠ x → r ≠ 0xF → t1.readV r = s.readV r ∧ t2.readV r = s.readV r)

/-- RND (`41_load_alu.md` R132, R133): the free byte of this draw masked by `kk`, for every value the byte may have;
the next RND takes the next byte. The draw is D17, its form the model's (log 6). -/
def Obligations.RandomByteIsMasked : Prop :=
  ∀ (x : Nibble) (kk : Byte) (s : State), ∃ t, exec (.rnd x kk) s = .next t ∧
    (∀ r, t.readV r = if r = x then Config.draw8 s.draws &&& kk else s.readV r) ∧
    (∀ j, kk.getLsbD j = false → (t.readV x).getLsbD j = false) ∧
    t.draws = s.draws + 1 ∧ t = { s with V := t.V, draws := t.draws } ∧ SameMemory s t

/-- The general registers an instruction may change (`10_state.md` R23, R24): those it names as destinations, and VF
when it is one of the nine flag writers. -/
def Obligations.OnlyDestinationsAndFlagChange : Prop :=
  ∀ (i : Instr) (s t : State) (r : Nibble), exec i s = .next t → t.readV r ≠ s.readV r →
    namesDestination r i = true ∨ (r = 0xF ∧ writesFlag i = true)

/-! Index register and memory -/

/-- LD I, ADD I, LD F (`42_index_memory.md` R140 to R142): no flag, 16-bit wrap-around; the whole register enters
LD F's formula, which is the spec's decision D20 (log 19). -/
def Obligations.IndexRegisterWrites : Prop :=
  ∀ (nnn : Addr12) (x : Nibble) (s : State), ∃ t1 t2 t3,
    exec (.ldI nnn) s = .next t1 ∧ exec (.addI x) s = .next t2 ∧ exec (.ldF x) s = .next t3 ∧
    t1.I.toNat = nnn.toNat ∧ t2.I.toNat = (s.I.toNat + (s.readV x).toNat) % 65536 ∧
    t3.I.toNat = 0x50 + (s.readV x).toNat * 5 ∧
    t1 = { s with I := t1.I } ∧ t2 = { s with I := t2.I } ∧ t3 = { s with I := t3.I } ∧
    SameMemory s t1 ∧ SameMemory s t2 ∧ SameMemory s t3

/-- LD B, Vx (`42_index_memory.md` R144), where the three bytes are in bounds: the decimal digits at the address in
`I`, hundreds first, and no other byte and no register changes. -/
def Obligations.BcdStoresThreeDigits : Prop :=
  ∀ (x : Nibble) (s : State), s.address + 3 ≤ 4096 → ∃ t, exec (.bcd x) s = .next t ∧
    (t.mem.readByte s.address).toNat = (s.readV x).toNat / 100 ∧
    (t.mem.readByte (s.address + 1)).toNat = (s.readV x).toNat / 10 % 10 ∧
    (t.mem.readByte (s.address + 2)).toNat = (s.readV x).toNat % 10 ∧
    SameMemoryOutside s.address 3 s t ∧ t = { s with mem := t.mem }

/-- LD [I], Vx (`42_index_memory.md` R145), where the block is in bounds: `V[j]` goes to the address in `I` plus `j`,
and `I` advances by `x + 1`, which is the spec's decision D25 (log 21). -/
def Obligations.BlockStoreWritesAndAdvances : Prop :=
  ∀ (x : Nibble) (s : State), s.address + (x.toNat + 1) ≤ 4096 → ∃ t, exec (.stRegs x) s = .next t ∧
    (∀ j : Nibble, j.toNat ≤ x.toNat → t.mem.readByte (s.address + j.toNat) = s.readV j) ∧
    SameMemoryOutside s.address (x.toNat + 1) s t ∧
    t.I.toNat = s.I.toNat + (x.toNat + 1) ∧ t = { s with mem := t.mem, I := t.I }

/-- R146 whole: the encoding, the registers `V0` to `Vx` from memory, the others and `I` unchanged; out of bounds the
bounds fault with this address and length, and no register written. -/
def Obligations.BlockLoadReadsRegisters : Prop :=
  ∀ (x : Nibble) (s : State),
    decodeWord (BitVec.ofNat 16 (0xF065 + x.toNat * 256)) = some (.ldRegs x) ∧
    (s.address + (x.toNat + 1) ≤ 4096 → ∃ t, exec (.ldRegs x) s = .next t ∧
      (∀ r : Nibble, t.readV r =
        if r.toNat ≤ x.toNat then s.mem.readByte (s.address + r.toNat) else s.readV r) ∧ OnlyV s t) ∧
    (4096 < s.address + (x.toNat + 1) → ∃ r u, exec (.ldRegs x) s = .fault (.bounds r u) ∧
      r.addr = s.I.toNat ∧ r.len = x.toNat + 1 ∧ u.V = s.V)

/-- An out-of-bounds DRW, LD B, LD [I] or LD Vx, [I] raises the bounds fault of its whole access and writes nothing
(`20_memory.md` R52, R53, R55, `60_exceptions.md` R203, R205). D14, D18 (logs 8, 9). -/
def Obligations.OutOfBoundsAccessFaults : Prop :=
  ∀ (i : Instr) (s : State) (n : Nat),
    ((∃ x y k, i = .drw x y k ∧ n = k.toNat) ∨ (∃ x, i = .bcd x ∧ n = 3) ∨
      (∃ x, (i = .stRegs x ∨ i = .ldRegs x) ∧ n = x.toNat + 1)) →
    4096 < s.I.toNat + n →
    let r : FaultRecord := ⟨.bounds, s.I.toNat, n, encodeWord i, none, s.pc - 2⟩
    exec i s = .fault (.bounds r { s with runState := .faulted r })

/-- Store then load (`42_index_memory.md` R147, which the spec derives; conflict C3): when `I` is set back to its value
before the store, and memory is as the store left it, the load restores `V0` to `Vx` whatever the registers hold in between. -/
def Obligations.StoreThenLoadRestoresRegisters : Prop :=
  ∀ (x : Nibble) (s : State), s.address + (x.toNat + 1) ≤ 4096 →
    ∃ t, exec (.stRegs x) s = .next t ∧ ∀ u : State, u.mem = t.mem → u.I = s.I →
      ∃ v, exec (.ldRegs x) u = .next v ∧ ∀ r : Nibble, r.toNat ≤ x.toNat → v.readV r = s.readV r

/-- Memory changes only by LD B and LD [I], inside the bytes they store (`10_state.md` R21, R39): every other step and
every event leaves every byte as it was. -/
def Obligations.MemoryChangesOnlyByStores : Prop :=
  ∀ (s t : State) (a : Nat), step s = .next t → t.mem.readByte a ≠ s.mem.readByte a →
    (∃ x, s.nextInstr = some (.bcd x) ∧ s.address ≤ a ∧ a < s.address + 3) ∨
    (∃ x, s.nextInstr = some (.stRegs x) ∧ s.address ≤ a ∧ a < s.address + (x.toNat + 1))

/-! Display -/

/-- CLS (`43_display.md` R160): every pixel off, `dirty` toggled where a pixel was on, nothing else. The `dirty`
bits are D22 (log 12). -/
def Obligations.ClearScreenTurnsAllPixelsOff : Prop :=
  ∀ s : State, ∃ t, exec .cls s = .next t ∧ (∀ r c, t.px.cell r c = false) ∧
    (∀ r c, t.dirty.cell r c = (s.dirty.cell r c ^^ s.px.cell r c)) ∧
    t = { s with px := t.px, dirty := t.dirty } ∧ SameMemory s t

/-- DRW in bounds (`43_display.md` R161 to R164): each pixel is inverted exactly where a set sprite bit lands, columns
wrapping modulo 64 and rows clipped; VF is 1 exactly when a set bit lands on a pixel that was on; `needs_redraw` is
set. Bit order D11, coordinates D12, count 0 D13, `dirty` D22 (logs 11, 12); for VF as operand D6 (log 18). -/
def Obligations.DrawCompositesSprite : Prop :=
  ∀ (x y n : Nibble) (s : State), s.address + n.toNat ≤ 4096 → ∃ t, exec (.drw x y n) s = .next t ∧
    (∀ r c, SpriteCovers s x y n r c →
      t.px.cell r c = !s.px.cell r c ∧ t.dirty.cell r c = !s.dirty.cell r c) ∧
    (∀ r c, ¬ SpriteCovers s x y n r c → t.px.cell r c = s.px.cell r c ∧ t.dirty.cell r c = s.dirty.cell r c) ∧
    ((∃ r c, SpriteCovers s x y n r c ∧ s.px.cell r c = true) → t.readV 0xF = 1) ∧
    ((∀ r c, SpriteCovers s x y n r c → s.px.cell r c = false) → t.readV 0xF = 0) ∧
    (∀ r, r ≠ 0xF → t.readV r = s.readV r) ∧ t.needsRedraw = true ∧
    t = { s with V := t.V, px := t.px, dirty := t.dirty, needsRedraw := t.needsRedraw } ∧ SameMemory s t

/-- Drawing twice (`43_display.md` R165): two identical DRW restore every pixel, and the second reports a collision
exactly when the first turned a pixel on. R165 is derived by the spec
from R161, with D11 to D13 (log 11); that `dirty` is restored rests on D22 (log 12). -/
def Obligations.DrawingTwiceRestoresTheDisplay : Prop :=
  ∀ (x y n : Nibble) (s : State), x ≠ 0xF → y ≠ 0xF → s.address + n.toNat ≤ 4096 →
    ∃ t u, exec (.drw x y n) s = .next t ∧ exec (.drw x y n) t = .next u ∧ u.px = s.px ∧ u.dirty = s.dirty ∧
      ((∃ r c, SpriteCovers s x y n r c ∧ s.px.cell r c = false) → u.readV 0xF = 1) ∧
      ((∀ r c, SpriteCovers s x y n r c → s.px.cell r c = true) → u.readV 0xF = 0)

/-- `dirty` remembers the presentation (`10_state.md` R31, R35; D22, log 12): pixel exclusive-or `dirty` is kept by
every step but a presentation, which clears `dirty` and leaves the pixels; and only CLS and DRW change a pixel. -/
def Obligations.DirtyTracksChangedPixels : Prop :=
  ∀ s t : State, step s = .next t →
    (s.schedule.head? ≠ some (.event .present) →
      ∀ r c, (t.px.cell r c ^^ t.dirty.cell r c) = (s.px.cell r c ^^ s.dirty.cell r c)) ∧
    (s.schedule.head? = some (.event .present) → t.px = s.px ∧ ∀ r c, t.dirty.cell r c = false) ∧
    (t.px ≠ s.px → s.nextInstr = some .cls ∨ ∃ x y n, s.nextInstr = some (.drw x y n))

/-- R166 whole: `needs_redraw` is set by every DRW that does not fault and by nothing else, and no engine step clears
it; of the events only the host's ClearRedraw does. -/
def Obligations.RedrawFlagSetOnlyByDraw : Prop :=
  ∀ s t : State, step s = .next t →
    (∀ x y n, s.nextInstr = some (.drw x y n) → t.needsRedraw = true) ∧
    (s.needsRedraw = false → t.needsRedraw = true → ∃ x y n, s.nextInstr = some (.drw x y n)) ∧
    (s.needsRedraw = true → t.needsRedraw = false → s.schedule.head? = some (.event .clearRedraw))

/-- Present on the host's buffer (`43_display.md` R168; D22, log 12): the block of a changed cell takes the
complement of the block's top-left pixel, every other block and every place outside the grid stays. -/
def Obligations.PresentInvertsChangedBlocks : Prop :=
  ∀ (Intensity : Type) (scale : Nat) (complement : Intensity → Intensity) (s : State)
    (buf : Nat → Nat → Intensity), 1 ≤ scale → (∀ r, s.runState ≠ .faulted r) →
    (∀ r c dy dx, r < 32 → c < 64 → dy < scale → dx < scale →
      presentBuffer scale complement s buf (r * scale + dy) (c * scale + dx) =
        if s.dirty.cell r c = true then complement (buf (r * scale) (c * scale))
        else buf (r * scale + dy) (c * scale + dx)) ∧
    (∀ row col, (32 * scale ≤ row ∨ 64 * scale ≤ col) → presentBuffer scale complement s buf row col = buf row col)

/-! Keys and timers -/

/-- SKP and SKNP (`44_keys_timers.md` R180, R181): they skip on complementary conditions; a value above 15 names no
key, which is the spec's decision D20 (log 19). -/
def Obligations.KeySkipsAreComplementary : Prop :=
  ∀ (x : Nibble) (s : State), ∃ t1 t2, exec (.skp x) s = .next t1 ∧ exec (.sknp x) s = .next t2 ∧
    OnlyPc s t1 ∧ OnlyPc s t2 ∧
    (∀ k : Nibble, (s.readV x).toNat = k.toNat → s.pressed.getLsbD k.toNat = true →
      t1.pc = s.pc + 2 ∧ t2.pc = s.pc) ∧
    (∀ k : Nibble, (s.readV x).toNat = k.toNat → s.pressed.getLsbD k.toNat = false →
      t1.pc = s.pc ∧ t2.pc = s.pc + 2) ∧
    (15 < (s.readV x).toNat → t1.pc = s.pc ∧ t2.pc = s.pc + 2)

/-- R182 whole: the encoding, AwaitingKey(x) entered whatever keys are held, no register and no `pc` change, and `pc`
unchanged by every engine step of the wait. -/
def Obligations.WaitForKeyEntersAwaitingKey : Prop :=
  ∀ (x : Nibble) (s : State),
    decodeWord (BitVec.ofNat 16 (0xF00A + x.toNat * 256)) = some (.ldVxK x) ∧
    exec (.ldVxK x) s = .next { s with runState := .awaitingKey x } ∧
    (∀ u v : State, u.runState = .awaitingKey x → step u = .next v → v.pc = u.pc)

/-- The timer copies and `sound_active` (`44_keys_timers.md` R184, R185, R189, R190); which code reads or writes which
timer is general knowledge (D5, log 4). -/
def Obligations.TimerCopies : Prop :=
  ∀ (x : Nibble) (s : State), ∃ t1 t2 t3,
    exec (.ldVxDt x) s = .next t1 ∧ exec (.ldDtVx x) s = .next t2 ∧ exec (.ldStVx x) s = .next t3 ∧
    (∀ r, t1.readV r = if r = x then s.DT else s.readV r) ∧ OnlyV s t1 ∧
    t2.DT = s.readV x ∧ t2 = { s with DT := t2.DT } ∧ t3.ST = s.readV x ∧ t3 = { s with ST := t3.ST } ∧
    (t3.soundActive = true ↔ s.readV x ≠ 0) ∧ SameMemory s t2 ∧ SameMemory s t3

/-- `k` ticks (`44_keys_timers.md` R188, `95_test_vectors.md` S8): both timers go down by `k`, stopping at 0, in
Running and in AwaitingKey; nothing else changes. Ticks as turns of `schedule` are the model's (log 7). -/
def Obligations.TicksSaturateAtZero : Prop :=
  ∀ (k : Nat) (s : State) (rest : List Turn), (∀ r, s.runState ≠ .faulted r) →
    s.schedule = List.replicate k (.event .tick) ++ rest →
    ∃ t, Host.Core.run Sys2Proof.core k s = .next t ∧
      t.DT.toNat = s.DT.toNat - k ∧ t.ST.toNat = s.ST.toNat - k ∧
      t = { s with DT := t.DT, ST := t.ST, schedule := rest }

/-- R192 whole: who writes a timer, that it only falls otherwise and stays at 0, and that a program sees `DT` by
LD Vx, DT only and `ST` not at all: two machines that differ in the timers alone take steps that tell the same,
unless the instruction executed is LD Vx, DT; if they differ in `ST` alone, always. -/
def Obligations.TimersAreSilent : Prop :=
  (∀ s t : State, step s = .next t →
    (t.DT ≠ s.DT → (∃ x, s.nextInstr = some (.ldDtVx x)) ∨ s.schedule.head? = some (.event .tick)) ∧
    (t.ST ≠ s.ST → (∃ x, s.nextInstr = some (.ldStVx x)) ∨ s.schedule.head? = some (.event .tick)) ∧
    (s.DT.toNat < t.DT.toNat → ∃ x, s.nextInstr = some (.ldDtVx x)) ∧
    (s.ST.toNat < t.ST.toNat → ∃ x, s.nextInstr = some (.ldStVx x))) ∧
  (∀ s t : State, SameButTimers s t → (∀ x, s.nextInstr ≠ some (.ldVxDt x)) →
    SameOutcome SameButTimers (step s) (step t)) ∧
  (∀ s t : State, t = { s with ST := t.ST } →
    SameOutcome (fun u v => v = { u with ST := v.ST }) (step s) (step t))

/-- Key events (`44_keys_timers.md` R186, R187; that a key-up leaves `last_key` is D16, log 10): which keys are held
after, which key is the last; nothing else changes, so a pending wait stays. -/
def Obligations.KeyEventsUpdateKeyboard : Prop :=
  ∀ (s : State) (k : Nibble), (∀ r, s.runState ≠ .faulted r) →
    (let t := applyEvent (.keyDown k) s;
      (∀ j : Nibble, t.keyHeld j.toNat = (j == k || s.keyHeld j.toNat)) ∧ t.lastKey = some k ∧
      t = { s with pressed := t.pressed, lastKey := t.lastKey }) ∧
    (let t := applyEvent (.keyUp k) s;
      (∀ j : Nibble, t.keyHeld j.toNat = (j != k && s.keyHeld j.toNat)) ∧ t = { s with pressed := t.pressed })

/-- Who changes the run state and the keyboard (`10_state.md` R32, R33): only LD Vx, K enters the wait, only its
resolution leaves it, no next state is Faulted, and the engine never writes the keyboard state. What resolves a wait
is D15 (log 10). -/
def Obligations.RunStateAndKeyboardWriters : Prop :=
  ∀ s t : State, step s = .next t →
    (∀ r, t.runState ≠ .faulted r) ∧
    (t.runState ≠ s.runState →
      (∃ x, s.nextInstr = some (.ldVxK x) ∧ t.runState = .awaitingKey x) ∨
      (∃ x k, s.runState = .awaitingKey x ∧ s.isEngineTurn = true ∧ s.lastKey = some k ∧
        s.keyHeld k.toNat = true ∧ t.runState = .running)) ∧
    (s.isEngineTurn = true → t.pressed = s.pressed ∧ t.lastKey = s.lastKey)

/-! The whole machine -/

/-- Which instruction touches which state (`10_state.md` R39): the frame of every instruction. `draws` and `schedule`
are the model's own fields (logs 6, 7). -/
def Obligations.InstructionsTouchOnlyTheirState : Prop :=
  ∀ (i : Instr) (s t : State), exec i s = .next t →
    (t.pc ≠ s.pc → i.mnemonic ∈ ["RET", "JP", "CALL", "SE_IMM", "SNE_IMM", "SE_REG", "SNE_REG", "JP_V0", "SKP",
      "SKNP"]) ∧
    (t.I ≠ s.I → i.mnemonic ∈ ["LD_I", "ADD_I", "LD_F", "ST_REGS"]) ∧
    (t.stack ≠ s.stack → i.mnemonic ∈ ["RET", "CALL"]) ∧
    (t.DT ≠ s.DT → i.mnemonic = "LD_DT_VX") ∧ (t.ST ≠ s.ST → i.mnemonic = "LD_ST_VX") ∧
    (t.px ≠ s.px ∨ t.dirty ≠ s.dirty → i.mnemonic ∈ ["CLS", "DRW"]) ∧
    (t.needsRedraw ≠ s.needsRedraw → i.mnemonic = "DRW") ∧ (t.runState ≠ s.runState → i.mnemonic = "LD_VX_K") ∧
    (t.draws ≠ s.draws → i.mnemonic = "RND") ∧
    ((∃ a, t.mem.readByte a ≠ s.mem.readByte a) → i.mnemonic ∈ ["BCD", "ST_REGS"]) ∧
    t.pressed = s.pressed ∧ t.lastKey = s.lastKey ∧ t.schedule = s.schedule

/-- Nothing the host alone reads is seen by a program: two machines that differ in `ST`, `dirty` and `needs_redraw`
alone take steps that tell the same (`10_state.md` R30, R34, R35: no instruction reads them). -/
def Obligations.HostOutputsAreNotSeen : Prop :=
  ∀ s t : State, SameButOutputs s t → SameOutcome SameButOutputs (step s) (step t)

/-- Every transition keeps the invariant: memory in canonical form inside 4096 bytes, at most 16 stack entries, return
addresses up to 0x1000, `pc` up to 0x10FE, so that arithmetic on `pc` never wraps (`10_state.md` R26, R27, `40_flow.md`
R109). Canonical form is the model's (log 2); depth and range rest on D7, D26 (logs 5, 20). -/
def Obligations.EveryStepKeepsTheInvariant : Prop :=
  ∀ s t : State, s.Inv → step s = .next t → t.Inv

/-- The reset state satisfies the invariant (`10_state.md` R38, D9, log 1). -/
def Obligations.ResetSatisfiesTheInvariant : Prop := State.reset.Inv

/-- Whatever program is loaded and however events interleave, every state reached satisfies the invariant, and
`pc` is below 2^16 - 4 there, so its arithmetic never wraps (`10_state.md` R26; `20_memory.md` R61, logs 7, 13). -/
def Obligations.EveryRunOfEveryProgramIsInRange : Prop :=
  ∀ (bytes : List Byte) (s t : State) (turns : List Turn), boot bytes = .next s →
    Reaches { s with schedule := turns } t → t.Inv ∧ (∀ r, t.runState ≠ .faulted r) ∧ t.pc.toNat + 4 < 65536

/-- The reset state (`10_state.md` R38, R22), and Reset from any state (`70_reset_and_hazards.md` R230), which gives it
but for the model's own `draws` and `schedule` (log 17). `pc` = 0x200 and the presence of a font are the source's; the
other values are the spec's decision D9 and the font bytes D10 (logs 1, 2). -/
def Obligations.ResetValues : Prop :=
  let font : List (List Byte) :=
    [[0xF0, 0x90, 0x90, 0x90, 0xF0], [0x20, 0x60, 0x20, 0x20, 0x70], [0xF0, 0x10, 0xF0, 0x80, 0xF0],
     [0xF0, 0x10, 0xF0, 0x10, 0xF0], [0x90, 0x90, 0xF0, 0x10, 0x10], [0xF0, 0x80, 0xF0, 0x10, 0xF0],
     [0xF0, 0x80, 0xF0, 0x90, 0xF0], [0xF0, 0x10, 0x20, 0x40, 0x40]] ++
    [[0xF0, 0x90, 0xF0, 0x90, 0xF0], [0xF0, 0x90, 0xF0, 0x10, 0xF0], [0xF0, 0x90, 0xF0, 0x90, 0x90],
     [0xE0, 0x90, 0xE0, 0x90, 0xE0], [0xF0, 0x80, 0x80, 0x80, 0xF0], [0xE0, 0x90, 0x90, 0x90, 0xE0],
     [0xF0, 0x80, 0xF0, 0x80, 0xF0], [0xF0, 0x80, 0xF0, 0x80, 0x80]]
  let s := State.reset
  (∀ d j, d < 16 → j < 5 → s.mem.readByte (0x050 + d * 5 + j) = (font.getD d []).getD j 0) ∧
  (∀ a, a < 0x050 ∨ 0x09F < a → s.mem.readByte a = 0) ∧ (∀ x, s.readV x = 0) ∧
  s.I = 0 ∧ s.pc = 0x200 ∧ s.sp = 0 ∧ s.DT = 0 ∧ s.ST = 0 ∧ (∀ r c, s.px.cell r c = false) ∧
  (∀ r c, s.dirty.cell r c = false) ∧ s.needsRedraw = false ∧ s.runState = .running ∧
  (∀ k, s.keyHeld k = false) ∧ s.lastKey = none ∧
  (∀ u : State, resetOp u = { State.reset with draws := u.draws, schedule := u.schedule })

/-- LoadProgram (`70_reset_and_hazards.md` R236): the stream verbatim from 0x200 upward, or the bounds fault with
nothing written. When the host may load is D27, the record D18 (logs 8, 13, 14). -/
def Obligations.LoadProgramWritesImage : Prop :=
  ∀ (bytes : List Byte) (s : State), (∀ r, s.runState ≠ .faulted r) →
    (bytes.length ≤ 3584 → ∃ t, loadProgram bytes s = .next t ∧
      (∀ j, j < bytes.length → t.mem.readByte (0x200 + j) = bytes.getD j 0) ∧
      SameMemoryOutside 0x200 bytes.length s t ∧ t = { s with mem := t.mem }) ∧
    (3584 < bytes.length →
      let r : FaultRecord := ⟨.bounds, 0x200, bytes.length, 0, none, s.pc⟩
      loadProgram bytes s = .fault (.bounds r { s with runState := .faulted r }))
end

