-- ==== Sys2Proof/Laws/Decode.lean ====
section
/-! SUPPORT. The fields of an assembled word, and row selection nibble by nibble. -/

namespace Sys2Proof

/-- The bits of a word made of two bytes. -/
theorem wordOfBytes_getLsbD (b0 b1 : Byte) (i : Nat) :
    (wordOfBytes b0 b1).getLsbD i = if i < 8 then b1.getLsbD i else b0.getLsbD (i - 8) := by
  simp only [wordOfBytes, BitVec.getLsbD_append]

/-- A word is its two bytes. -/
@[simp] theorem wordOfBytes_bytes (w : Word) : wordOfBytes (w.extractLsb' 8 8) (w.extractLsb' 0 8) = w := by
  apply BitVec.eq_of_getLsbD_eq
  intro i hi
  simp only [wordOfBytes_getLsbD, BitVec.getLsbD_extractLsb', Nat.zero_add]
  by_cases h : i < 8
  · simp [h]
  · simp [h, show i - 8 < 8 by omega, show 8 + (i - 8) = i by omega]

/-- The high byte of an assembled word. -/
@[simp] theorem wordOfBytes_high (b0 b1 : Byte) : (wordOfBytes b0 b1).extractLsb' 8 8 = b0 := by
  apply BitVec.eq_of_getLsbD_eq
  intro i hi
  simp [wordOfBytes_getLsbD, hi]

/-- The low byte of an assembled word. -/
@[simp] theorem wordOfBytes_low (b0 b1 : Byte) : (wordOfBytes b0 b1).extractLsb' 0 8 = b1 := by
  apply BitVec.eq_of_getLsbD_eq
  intro i hi
  simp [wordOfBytes_getLsbD, hi]

/-- Two words are equal when their four nibbles are. -/
theorem word_eq_iff (v w : Word) :
    v = w ↔ fieldOp v = fieldOp w ∧ fieldX v = fieldX w ∧ fieldY v = fieldY w ∧ fieldN v = fieldN w := by
  constructor
  · rintro rfl; exact ⟨rfl, rfl, rfl, rfl⟩
  · rintro ⟨h1, h2, h3, h4⟩
    apply BitVec.eq_of_getLsbD_eq
    intro i hi
    have g : ∀ (lo j : Nat), j < 4 → v.extractLsb' lo 4 = w.extractLsb' lo 4 →
        v.getLsbD (lo + j) = w.getLsbD (lo + j) := by
      intro lo j hj h
      have := congrArg (fun b : Nibble => b.getLsbD j) h
      simpa [BitVec.getLsbD_extractLsb', hj] using this
    by_cases c1 : 12 ≤ i
    · simpa [show 12 + (i - 12) = i by omega] using g 12 (i - 12) (by omega) h1
    · by_cases c2 : 8 ≤ i
      · simpa [show 8 + (i - 8) = i by omega] using g 8 (i - 8) (by omega) h2
      · by_cases c3 : 4 ≤ i
        · simpa [show 4 + (i - 4) = i by omega] using g 4 (i - 4) (by omega) h3
        · simpa using g 0 i (by omega) h4

/-- Row selection, nibble by nibble (`30_encoding.md` R80). -/
theorem selects_iff (r : OpRow) (w : Word) : r.selects w = true ↔
    fieldOp w &&& fieldOp r.mask = fieldOp r.pattern ∧ fieldX w &&& fieldX r.mask = fieldX r.pattern ∧
      fieldY w &&& fieldY r.mask = fieldY r.pattern ∧ fieldN w &&& fieldN r.mask = fieldN r.pattern := by
  rw [OpRow.selects, beq_iff_eq, word_eq_iff]
  simp only [fieldOp, fieldX, fieldY, fieldN, BitVec.extractLsb'_and]

/-- Row selection, nibble by nibble, as a test (`30_encoding.md` R80). -/
theorem selects_eq (name : String) (mask pattern w : Word) (build : Word → Instr) :
    OpRow.selects ⟨name, mask, pattern, build⟩ w =
      (decide (fieldOp w &&& fieldOp mask = fieldOp pattern) && decide (fieldX w &&& fieldX mask = fieldX pattern) &&
        decide (fieldY w &&& fieldY mask = fieldY pattern) && decide (fieldN w &&& fieldN mask = fieldN pattern)) := by
  rw [Bool.eq_iff_iff, selects_iff]
  simp [and_assoc]

theorem fieldOp_ofNat (k : Nat) : fieldOp (BitVec.ofNat 16 k) = BitVec.ofNat 4 (k / 4096) := by
  apply BitVec.eq_of_toNat_eq; simp [fieldOp, Nat.shiftRight_eq_div_pow]; omega

theorem fieldX_ofNat (k : Nat) : fieldX (BitVec.ofNat 16 k) = BitVec.ofNat 4 (k / 256) := by
  apply BitVec.eq_of_toNat_eq; simp [fieldX, Nat.shiftRight_eq_div_pow]; omega

theorem fieldY_ofNat (k : Nat) : fieldY (BitVec.ofNat 16 k) = BitVec.ofNat 4 (k / 16) := by
  apply BitVec.eq_of_toNat_eq; simp [fieldY, Nat.shiftRight_eq_div_pow]; omega

theorem fieldN_ofNat (k : Nat) : fieldN (BitVec.ofNat 16 k) = BitVec.ofNat 4 k := by
  apply BitVec.eq_of_toNat_eq; simp [fieldN]

/-- A full mask nibble keeps a nibble. -/
@[simp] theorem nibble_and_full (a : Nibble) : a &&& 15#4 = a := by revert a; decide

section Fields

variable (op x y n : Nibble) (kk : Byte) (nnn : Addr12)

/-- The bits of a word in format XYF or XYN. -/
theorem packXYN_getLsbD (i : Nat) : (packXYN op x y n).getLsbD i =
    if i < 4 then n.getLsbD i else if i - 4 < 4 then y.getLsbD (i - 4) else
      if i - 4 - 4 < 4 then x.getLsbD (i - 4 - 4) else op.getLsbD (i - 4 - 4 - 4) := by
  simp only [packXYN, BitVec.getLsbD_append]

/-- The bits of a word in format XKK or XFF. -/
theorem packXKK_getLsbD (i : Nat) : (packXKK op x kk).getLsbD i =
    if i < 8 then kk.getLsbD i else if i - 8 < 4 then x.getLsbD (i - 8) else op.getLsbD (i - 8 - 4) := by
  simp only [packXKK, BitVec.getLsbD_append]

/-- The bits of a word in format NNN. -/
theorem packNNN_getLsbD (i : Nat) : (packNNN op nnn).getLsbD i =
    if i < 12 then nnn.getLsbD i else op.getLsbD (i - 12) := by
  simp only [packNNN, BitVec.getLsbD_append]

@[simp] theorem fieldOp_packXYN : fieldOp (packXYN op x y n) = op := by
  apply BitVec.eq_of_getLsbD_eq
  intro i hi
  simp [fieldOp, packXYN_getLsbD, hi, show ¬ 12 + i < 4 by omega,
    show ¬ 12 + i - 4 < 4 by omega, show ¬ 12 + i - 4 - 4 < 4 by omega, show 12 + i - 4 - 4 - 4 = i by omega]

@[simp] theorem fieldX_packXYN : fieldX (packXYN op x y n) = x := by
  apply BitVec.eq_of_getLsbD_eq
  intro i hi
  simp [fieldX, packXYN_getLsbD, hi, show ¬ 8 + i < 4 by omega,
    show ¬ 8 + i - 4 < 4 by omega, show 8 + i - 4 - 4 = i by omega]

@[simp] theorem fieldY_packXYN : fieldY (packXYN op x y n) = y := by
  apply BitVec.eq_of_getLsbD_eq
  intro i hi
  simp [fieldY, packXYN_getLsbD, hi, show ¬ 4 + i < 4 by omega,
    show 4 + i - 4 = i by omega]

@[simp] theorem fieldN_packXYN : fieldN (packXYN op x y n) = n := by
  apply BitVec.eq_of_getLsbD_eq
  intro i hi
  simp [fieldN, packXYN_getLsbD, hi]

@[simp] theorem fieldOp_packXKK : fieldOp (packXKK op x kk) = op := by
  apply BitVec.eq_of_getLsbD_eq
  intro i hi
  simp [fieldOp, packXKK_getLsbD, hi, show ¬ 12 + i < 8 by omega,
    show ¬ 12 + i - 8 < 4 by omega, show 12 + i - 8 - 4 = i by omega]

@[simp] theorem fieldX_packXKK : fieldX (packXKK op x kk) = x := by
  apply BitVec.eq_of_getLsbD_eq
  intro i hi
  simp [fieldX, packXKK_getLsbD, hi, show ¬ 8 + i < 8 by omega,
    show 8 + i - 8 = i by omega]

@[simp] theorem fieldKK_packXKK : fieldKK (packXKK op x kk) = kk := by
  apply BitVec.eq_of_getLsbD_eq
  intro i hi
  simp [fieldKK, packXKK_getLsbD, hi]

@[simp] theorem fieldY_packXKK : fieldY (packXKK op x kk) = kk.extractLsb' 4 4 := by
  apply BitVec.eq_of_getLsbD_eq
  intro i hi
  simp [fieldY, packXKK_getLsbD, hi, show 4 + i < 8 by omega]

@[simp] theorem fieldN_packXKK : fieldN (packXKK op x kk) = kk.extractLsb' 0 4 := by
  apply BitVec.eq_of_getLsbD_eq
  intro i hi
  simp [fieldN, packXKK_getLsbD, hi, show i < 8 by omega]

@[simp] theorem fieldOp_packNNN : fieldOp (packNNN op nnn) = op := by
  apply BitVec.eq_of_getLsbD_eq
  intro i hi
  simp [fieldOp, packNNN_getLsbD, hi, show ¬ 12 + i < 12 by omega,
    show 12 + i - 12 = i by omega]

@[simp] theorem fieldNNN_packNNN : fieldNNN (packNNN op nnn) = nnn := by
  apply BitVec.eq_of_getLsbD_eq
  intro i hi
  simp [fieldNNN, packNNN_getLsbD, hi]

@[simp] theorem fieldX_packNNN : fieldX (packNNN op nnn) = nnn.extractLsb' 8 4 := by
  apply BitVec.eq_of_getLsbD_eq
  intro i hi
  simp [fieldX, packNNN_getLsbD, hi, show 8 + i < 12 by omega]

@[simp] theorem fieldY_packNNN : fieldY (packNNN op nnn) = nnn.extractLsb' 4 4 := by
  apply BitVec.eq_of_getLsbD_eq
  intro i hi
  simp [fieldY, packNNN_getLsbD, hi, show 4 + i < 12 by omega]

@[simp] theorem fieldN_packNNN : fieldN (packNNN op nnn) = nnn.extractLsb' 0 4 := by
  apply BitVec.eq_of_getLsbD_eq
  intro i hi
  simp [fieldN, packNNN_getLsbD, hi, show i < 12 by omega]

end Fields

end Sys2Proof
end

