-- ==== Sys2Proof/Laws/State.lean ====
section
/-! SUPPORT. What each update of Machine/Ops.lean does to each field of State: one lemma per field per update. -/

namespace Sys2Proof.Machine

variable (s : State)


@[simp] theorem State.setV_mem (x : Nibble) (v : Byte) : (s.setV x v).mem = s.mem := rfl
@[simp] theorem State.setV_V (x : Nibble) (v : Byte) : (s.setV x v).V = s.V.set x.toNat v x.isLt := rfl
@[simp] theorem State.setV_I (x : Nibble) (v : Byte) : (s.setV x v).I = s.I := rfl
@[simp] theorem State.setV_pc (x : Nibble) (v : Byte) : (s.setV x v).pc = s.pc := rfl
@[simp] theorem State.setV_stack (x : Nibble) (v : Byte) : (s.setV x v).stack = s.stack := rfl
@[simp] theorem State.setV_DT (x : Nibble) (v : Byte) : (s.setV x v).DT = s.DT := rfl
@[simp] theorem State.setV_ST (x : Nibble) (v : Byte) : (s.setV x v).ST = s.ST := rfl
@[simp] theorem State.setV_px (x : Nibble) (v : Byte) : (s.setV x v).px = s.px := rfl
@[simp] theorem State.setV_dirty (x : Nibble) (v : Byte) : (s.setV x v).dirty = s.dirty := rfl
@[simp] theorem State.setV_needsRedraw (x : Nibble) (v : Byte) : (s.setV x v).needsRedraw = s.needsRedraw := rfl
@[simp] theorem State.setV_runState (x : Nibble) (v : Byte) : (s.setV x v).runState = s.runState := rfl
@[simp] theorem State.setV_pressed (x : Nibble) (v : Byte) : (s.setV x v).pressed = s.pressed := rfl
@[simp] theorem State.setV_lastKey (x : Nibble) (v : Byte) : (s.setV x v).lastKey = s.lastKey := rfl
@[simp] theorem State.setV_draws (x : Nibble) (v : Byte) : (s.setV x v).draws = s.draws := rfl
@[simp] theorem State.setV_schedule (x : Nibble) (v : Byte) : (s.setV x v).schedule = s.schedule := rfl

@[simp] theorem State.setMem_mem (m : Memory) : (s.setMem m).mem = m := rfl
@[simp] theorem State.setMem_V (m : Memory) : (s.setMem m).V = s.V := rfl
@[simp] theorem State.setMem_I (m : Memory) : (s.setMem m).I = s.I := rfl
@[simp] theorem State.setMem_pc (m : Memory) : (s.setMem m).pc = s.pc := rfl
@[simp] theorem State.setMem_stack (m : Memory) : (s.setMem m).stack = s.stack := rfl
@[simp] theorem State.setMem_DT (m : Memory) : (s.setMem m).DT = s.DT := rfl
@[simp] theorem State.setMem_ST (m : Memory) : (s.setMem m).ST = s.ST := rfl
@[simp] theorem State.setMem_px (m : Memory) : (s.setMem m).px = s.px := rfl
@[simp] theorem State.setMem_dirty (m : Memory) : (s.setMem m).dirty = s.dirty := rfl
@[simp] theorem State.setMem_needsRedraw (m : Memory) : (s.setMem m).needsRedraw = s.needsRedraw := rfl
@[simp] theorem State.setMem_runState (m : Memory) : (s.setMem m).runState = s.runState := rfl
@[simp] theorem State.setMem_pressed (m : Memory) : (s.setMem m).pressed = s.pressed := rfl
@[simp] theorem State.setMem_lastKey (m : Memory) : (s.setMem m).lastKey = s.lastKey := rfl
@[simp] theorem State.setMem_draws (m : Memory) : (s.setMem m).draws = s.draws := rfl
@[simp] theorem State.setMem_schedule (m : Memory) : (s.setMem m).schedule = s.schedule := rfl

@[simp] theorem State.setI_mem (a : Word) : (s.setI a).mem = s.mem := rfl
@[simp] theorem State.setI_V (a : Word) : (s.setI a).V = s.V := rfl
@[simp] theorem State.setI_I (a : Word) : (s.setI a).I = a := rfl
@[simp] theorem State.setI_pc (a : Word) : (s.setI a).pc = s.pc := rfl
@[simp] theorem State.setI_stack (a : Word) : (s.setI a).stack = s.stack := rfl
@[simp] theorem State.setI_DT (a : Word) : (s.setI a).DT = s.DT := rfl
@[simp] theorem State.setI_ST (a : Word) : (s.setI a).ST = s.ST := rfl
@[simp] theorem State.setI_px (a : Word) : (s.setI a).px = s.px := rfl
@[simp] theorem State.setI_dirty (a : Word) : (s.setI a).dirty = s.dirty := rfl
@[simp] theorem State.setI_needsRedraw (a : Word) : (s.setI a).needsRedraw = s.needsRedraw := rfl
@[simp] theorem State.setI_runState (a : Word) : (s.setI a).runState = s.runState := rfl
@[simp] theorem State.setI_pressed (a : Word) : (s.setI a).pressed = s.pressed := rfl
@[simp] theorem State.setI_lastKey (a : Word) : (s.setI a).lastKey = s.lastKey := rfl
@[simp] theorem State.setI_draws (a : Word) : (s.setI a).draws = s.draws := rfl
@[simp] theorem State.setI_schedule (a : Word) : (s.setI a).schedule = s.schedule := rfl

@[simp] theorem State.setPc_mem (a : Word) : (s.setPc a).mem = s.mem := rfl
@[simp] theorem State.setPc_V (a : Word) : (s.setPc a).V = s.V := rfl
@[simp] theorem State.setPc_I (a : Word) : (s.setPc a).I = s.I := rfl
@[simp] theorem State.setPc_pc (a : Word) : (s.setPc a).pc = a := rfl
@[simp] theorem State.setPc_stack (a : Word) : (s.setPc a).stack = s.stack := rfl
@[simp] theorem State.setPc_DT (a : Word) : (s.setPc a).DT = s.DT := rfl
@[simp] theorem State.setPc_ST (a : Word) : (s.setPc a).ST = s.ST := rfl
@[simp] theorem State.setPc_px (a : Word) : (s.setPc a).px = s.px := rfl
@[simp] theorem State.setPc_dirty (a : Word) : (s.setPc a).dirty = s.dirty := rfl
@[simp] theorem State.setPc_needsRedraw (a : Word) : (s.setPc a).needsRedraw = s.needsRedraw := rfl
@[simp] theorem State.setPc_runState (a : Word) : (s.setPc a).runState = s.runState := rfl
@[simp] theorem State.setPc_pressed (a : Word) : (s.setPc a).pressed = s.pressed := rfl
@[simp] theorem State.setPc_lastKey (a : Word) : (s.setPc a).lastKey = s.lastKey := rfl
@[simp] theorem State.setPc_draws (a : Word) : (s.setPc a).draws = s.draws := rfl
@[simp] theorem State.setPc_schedule (a : Word) : (s.setPc a).schedule = s.schedule := rfl

@[simp] theorem State.setStack_mem (st : List Word) : (s.setStack st).mem = s.mem := rfl
@[simp] theorem State.setStack_V (st : List Word) : (s.setStack st).V = s.V := rfl
@[simp] theorem State.setStack_I (st : List Word) : (s.setStack st).I = s.I := rfl
@[simp] theorem State.setStack_pc (st : List Word) : (s.setStack st).pc = s.pc := rfl
@[simp] theorem State.setStack_stack (st : List Word) : (s.setStack st).stack = st := rfl
@[simp] theorem State.setStack_DT (st : List Word) : (s.setStack st).DT = s.DT := rfl
@[simp] theorem State.setStack_ST (st : List Word) : (s.setStack st).ST = s.ST := rfl
@[simp] theorem State.setStack_px (st : List Word) : (s.setStack st).px = s.px := rfl
@[simp] theorem State.setStack_dirty (st : List Word) : (s.setStack st).dirty = s.dirty := rfl
@[simp] theorem State.setStack_needsRedraw (st : List Word) : (s.setStack st).needsRedraw = s.needsRedraw := rfl
@[simp] theorem State.setStack_runState (st : List Word) : (s.setStack st).runState = s.runState := rfl
@[simp] theorem State.setStack_pressed (st : List Word) : (s.setStack st).pressed = s.pressed := rfl
@[simp] theorem State.setStack_lastKey (st : List Word) : (s.setStack st).lastKey = s.lastKey := rfl
@[simp] theorem State.setStack_draws (st : List Word) : (s.setStack st).draws = s.draws := rfl
@[simp] theorem State.setStack_schedule (st : List Word) : (s.setStack st).schedule = s.schedule := rfl

@[simp] theorem State.setDT_mem (v : Byte) : (s.setDT v).mem = s.mem := rfl
@[simp] theorem State.setDT_V (v : Byte) : (s.setDT v).V = s.V := rfl
@[simp] theorem State.setDT_I (v : Byte) : (s.setDT v).I = s.I := rfl
@[simp] theorem State.setDT_pc (v : Byte) : (s.setDT v).pc = s.pc := rfl
@[simp] theorem State.setDT_stack (v : Byte) : (s.setDT v).stack = s.stack := rfl
@[simp] theorem State.setDT_DT (v : Byte) : (s.setDT v).DT = v := rfl
@[simp] theorem State.setDT_ST (v : Byte) : (s.setDT v).ST = s.ST := rfl
@[simp] theorem State.setDT_px (v : Byte) : (s.setDT v).px = s.px := rfl
@[simp] theorem State.setDT_dirty (v : Byte) : (s.setDT v).dirty = s.dirty := rfl
@[simp] theorem State.setDT_needsRedraw (v : Byte) : (s.setDT v).needsRedraw = s.needsRedraw := rfl
@[simp] theorem State.setDT_runState (v : Byte) : (s.setDT v).runState = s.runState := rfl
@[simp] theorem State.setDT_pressed (v : Byte) : (s.setDT v).pressed = s.pressed := rfl
@[simp] theorem State.setDT_lastKey (v : Byte) : (s.setDT v).lastKey = s.lastKey := rfl
@[simp] theorem State.setDT_draws (v : Byte) : (s.setDT v).draws = s.draws := rfl
@[simp] theorem State.setDT_schedule (v : Byte) : (s.setDT v).schedule = s.schedule := rfl

@[simp] theorem State.setST_mem (v : Byte) : (s.setST v).mem = s.mem := rfl
@[simp] theorem State.setST_V (v : Byte) : (s.setST v).V = s.V := rfl
@[simp] theorem State.setST_I (v : Byte) : (s.setST v).I = s.I := rfl
@[simp] theorem State.setST_pc (v : Byte) : (s.setST v).pc = s.pc := rfl
@[simp] theorem State.setST_stack (v : Byte) : (s.setST v).stack = s.stack := rfl
@[simp] theorem State.setST_DT (v : Byte) : (s.setST v).DT = s.DT := rfl
@[simp] theorem State.setST_ST (v : Byte) : (s.setST v).ST = v := rfl
@[simp] theorem State.setST_px (v : Byte) : (s.setST v).px = s.px := rfl
@[simp] theorem State.setST_dirty (v : Byte) : (s.setST v).dirty = s.dirty := rfl
@[simp] theorem State.setST_needsRedraw (v : Byte) : (s.setST v).needsRedraw = s.needsRedraw := rfl
@[simp] theorem State.setST_runState (v : Byte) : (s.setST v).runState = s.runState := rfl
@[simp] theorem State.setST_pressed (v : Byte) : (s.setST v).pressed = s.pressed := rfl
@[simp] theorem State.setST_lastKey (v : Byte) : (s.setST v).lastKey = s.lastKey := rfl
@[simp] theorem State.setST_draws (v : Byte) : (s.setST v).draws = s.draws := rfl
@[simp] theorem State.setST_schedule (v : Byte) : (s.setST v).schedule = s.schedule := rfl

@[simp] theorem State.setDisplay_mem (p d : Grid) : (s.setDisplay p d).mem = s.mem := rfl
@[simp] theorem State.setDisplay_V (p d : Grid) : (s.setDisplay p d).V = s.V := rfl
@[simp] theorem State.setDisplay_I (p d : Grid) : (s.setDisplay p d).I = s.I := rfl
@[simp] theorem State.setDisplay_pc (p d : Grid) : (s.setDisplay p d).pc = s.pc := rfl
@[simp] theorem State.setDisplay_stack (p d : Grid) : (s.setDisplay p d).stack = s.stack := rfl
@[simp] theorem State.setDisplay_DT (p d : Grid) : (s.setDisplay p d).DT = s.DT := rfl
@[simp] theorem State.setDisplay_ST (p d : Grid) : (s.setDisplay p d).ST = s.ST := rfl
@[simp] theorem State.setDisplay_px (p d : Grid) : (s.setDisplay p d).px = p := rfl
@[simp] theorem State.setDisplay_dirty (p d : Grid) : (s.setDisplay p d).dirty = d := rfl
@[simp] theorem State.setDisplay_needsRedraw (p d : Grid) : (s.setDisplay p d).needsRedraw = s.needsRedraw := rfl
@[simp] theorem State.setDisplay_runState (p d : Grid) : (s.setDisplay p d).runState = s.runState := rfl
@[simp] theorem State.setDisplay_pressed (p d : Grid) : (s.setDisplay p d).pressed = s.pressed := rfl
@[simp] theorem State.setDisplay_lastKey (p d : Grid) : (s.setDisplay p d).lastKey = s.lastKey := rfl
@[simp] theorem State.setDisplay_draws (p d : Grid) : (s.setDisplay p d).draws = s.draws := rfl
@[simp] theorem State.setDisplay_schedule (p d : Grid) : (s.setDisplay p d).schedule = s.schedule := rfl

@[simp] theorem State.setRedraw_mem (b : Bool) : (s.setRedraw b).mem = s.mem := rfl
@[simp] theorem State.setRedraw_V (b : Bool) : (s.setRedraw b).V = s.V := rfl
@[simp] theorem State.setRedraw_I (b : Bool) : (s.setRedraw b).I = s.I := rfl
@[simp] theorem State.setRedraw_pc (b : Bool) : (s.setRedraw b).pc = s.pc := rfl
@[simp] theorem State.setRedraw_stack (b : Bool) : (s.setRedraw b).stack = s.stack := rfl
@[simp] theorem State.setRedraw_DT (b : Bool) : (s.setRedraw b).DT = s.DT := rfl
@[simp] theorem State.setRedraw_ST (b : Bool) : (s.setRedraw b).ST = s.ST := rfl
@[simp] theorem State.setRedraw_px (b : Bool) : (s.setRedraw b).px = s.px := rfl
@[simp] theorem State.setRedraw_dirty (b : Bool) : (s.setRedraw b).dirty = s.dirty := rfl
@[simp] theorem State.setRedraw_needsRedraw (b : Bool) : (s.setRedraw b).needsRedraw = b := rfl
@[simp] theorem State.setRedraw_runState (b : Bool) : (s.setRedraw b).runState = s.runState := rfl
@[simp] theorem State.setRedraw_pressed (b : Bool) : (s.setRedraw b).pressed = s.pressed := rfl
@[simp] theorem State.setRedraw_lastKey (b : Bool) : (s.setRedraw b).lastKey = s.lastKey := rfl
@[simp] theorem State.setRedraw_draws (b : Bool) : (s.setRedraw b).draws = s.draws := rfl
@[simp] theorem State.setRedraw_schedule (b : Bool) : (s.setRedraw b).schedule = s.schedule := rfl

@[simp] theorem State.setRun_mem (r : RunState) : (s.setRun r).mem = s.mem := rfl
@[simp] theorem State.setRun_V (r : RunState) : (s.setRun r).V = s.V := rfl
@[simp] theorem State.setRun_I (r : RunState) : (s.setRun r).I = s.I := rfl
@[simp] theorem State.setRun_pc (r : RunState) : (s.setRun r).pc = s.pc := rfl
@[simp] theorem State.setRun_stack (r : RunState) : (s.setRun r).stack = s.stack := rfl
@[simp] theorem State.setRun_DT (r : RunState) : (s.setRun r).DT = s.DT := rfl
@[simp] theorem State.setRun_ST (r : RunState) : (s.setRun r).ST = s.ST := rfl
@[simp] theorem State.setRun_px (r : RunState) : (s.setRun r).px = s.px := rfl
@[simp] theorem State.setRun_dirty (r : RunState) : (s.setRun r).dirty = s.dirty := rfl
@[simp] theorem State.setRun_needsRedraw (r : RunState) : (s.setRun r).needsRedraw = s.needsRedraw := rfl
@[simp] theorem State.setRun_runState (r : RunState) : (s.setRun r).runState = r := rfl
@[simp] theorem State.setRun_pressed (r : RunState) : (s.setRun r).pressed = s.pressed := rfl
@[simp] theorem State.setRun_lastKey (r : RunState) : (s.setRun r).lastKey = s.lastKey := rfl
@[simp] theorem State.setRun_draws (r : RunState) : (s.setRun r).draws = s.draws := rfl
@[simp] theorem State.setRun_schedule (r : RunState) : (s.setRun r).schedule = s.schedule := rfl

@[simp] theorem State.setKeys_mem (k : BitVec 16) (l : Option Nibble) : (s.setKeys k l).mem = s.mem := rfl
@[simp] theorem State.setKeys_V (k : BitVec 16) (l : Option Nibble) : (s.setKeys k l).V = s.V := rfl
@[simp] theorem State.setKeys_I (k : BitVec 16) (l : Option Nibble) : (s.setKeys k l).I = s.I := rfl
@[simp] theorem State.setKeys_pc (k : BitVec 16) (l : Option Nibble) : (s.setKeys k l).pc = s.pc := rfl
@[simp] theorem State.setKeys_stack (k : BitVec 16) (l : Option Nibble) : (s.setKeys k l).stack = s.stack := rfl
@[simp] theorem State.setKeys_DT (k : BitVec 16) (l : Option Nibble) : (s.setKeys k l).DT = s.DT := rfl
@[simp] theorem State.setKeys_ST (k : BitVec 16) (l : Option Nibble) : (s.setKeys k l).ST = s.ST := rfl
@[simp] theorem State.setKeys_px (k : BitVec 16) (l : Option Nibble) : (s.setKeys k l).px = s.px := rfl
@[simp] theorem State.setKeys_dirty (k : BitVec 16) (l : Option Nibble) : (s.setKeys k l).dirty = s.dirty := rfl
@[simp] theorem State.setKeys_needsRedraw (k : BitVec 16) (l : Option Nibble) : (s.setKeys k l).needsRedraw = s.needsRedraw := rfl
@[simp] theorem State.setKeys_runState (k : BitVec 16) (l : Option Nibble) : (s.setKeys k l).runState = s.runState := rfl
@[simp] theorem State.setKeys_pressed (k : BitVec 16) (l : Option Nibble) : (s.setKeys k l).pressed = k := rfl
@[simp] theorem State.setKeys_lastKey (k : BitVec 16) (l : Option Nibble) : (s.setKeys k l).lastKey = l := rfl
@[simp] theorem State.setKeys_draws (k : BitVec 16) (l : Option Nibble) : (s.setKeys k l).draws = s.draws := rfl
@[simp] theorem State.setKeys_schedule (k : BitVec 16) (l : Option Nibble) : (s.setKeys k l).schedule = s.schedule := rfl

@[simp] theorem State.takeDraw_mem : s.takeDraw.mem = s.mem := rfl
@[simp] theorem State.takeDraw_V : s.takeDraw.V = s.V := rfl
@[simp] theorem State.takeDraw_I : s.takeDraw.I = s.I := rfl
@[simp] theorem State.takeDraw_pc : s.takeDraw.pc = s.pc := rfl
@[simp] theorem State.takeDraw_stack : s.takeDraw.stack = s.stack := rfl
@[simp] theorem State.takeDraw_DT : s.takeDraw.DT = s.DT := rfl
@[simp] theorem State.takeDraw_ST : s.takeDraw.ST = s.ST := rfl
@[simp] theorem State.takeDraw_px : s.takeDraw.px = s.px := rfl
@[simp] theorem State.takeDraw_dirty : s.takeDraw.dirty = s.dirty := rfl
@[simp] theorem State.takeDraw_needsRedraw : s.takeDraw.needsRedraw = s.needsRedraw := rfl
@[simp] theorem State.takeDraw_runState : s.takeDraw.runState = s.runState := rfl
@[simp] theorem State.takeDraw_pressed : s.takeDraw.pressed = s.pressed := rfl
@[simp] theorem State.takeDraw_lastKey : s.takeDraw.lastKey = s.lastKey := rfl
@[simp] theorem State.takeDraw_draws : s.takeDraw.draws = s.draws + 1 := rfl
@[simp] theorem State.takeDraw_schedule : s.takeDraw.schedule = s.schedule := rfl

@[simp] theorem State.setSchedule_mem (ts : List Turn) : (s.setSchedule ts).mem = s.mem := rfl
@[simp] theorem State.setSchedule_V (ts : List Turn) : (s.setSchedule ts).V = s.V := rfl
@[simp] theorem State.setSchedule_I (ts : List Turn) : (s.setSchedule ts).I = s.I := rfl
@[simp] theorem State.setSchedule_pc (ts : List Turn) : (s.setSchedule ts).pc = s.pc := rfl
@[simp] theorem State.setSchedule_stack (ts : List Turn) : (s.setSchedule ts).stack = s.stack := rfl
@[simp] theorem State.setSchedule_DT (ts : List Turn) : (s.setSchedule ts).DT = s.DT := rfl
@[simp] theorem State.setSchedule_ST (ts : List Turn) : (s.setSchedule ts).ST = s.ST := rfl
@[simp] theorem State.setSchedule_px (ts : List Turn) : (s.setSchedule ts).px = s.px := rfl
@[simp] theorem State.setSchedule_dirty (ts : List Turn) : (s.setSchedule ts).dirty = s.dirty := rfl
@[simp] theorem State.setSchedule_needsRedraw (ts : List Turn) : (s.setSchedule ts).needsRedraw = s.needsRedraw := rfl
@[simp] theorem State.setSchedule_runState (ts : List Turn) : (s.setSchedule ts).runState = s.runState := rfl
@[simp] theorem State.setSchedule_pressed (ts : List Turn) : (s.setSchedule ts).pressed = s.pressed := rfl
@[simp] theorem State.setSchedule_lastKey (ts : List Turn) : (s.setSchedule ts).lastKey = s.lastKey := rfl
@[simp] theorem State.setSchedule_draws (ts : List Turn) : (s.setSchedule ts).draws = s.draws := rfl
@[simp] theorem State.setSchedule_schedule (ts : List Turn) : (s.setSchedule ts).schedule = ts := rfl

@[simp] theorem State.advancePc_mem : s.advancePc.mem = s.mem := rfl
@[simp] theorem State.advancePc_V : s.advancePc.V = s.V := rfl
@[simp] theorem State.advancePc_I : s.advancePc.I = s.I := rfl
@[simp] theorem State.advancePc_pc : s.advancePc.pc = s.pc + 2 := rfl
@[simp] theorem State.advancePc_stack : s.advancePc.stack = s.stack := rfl
@[simp] theorem State.advancePc_DT : s.advancePc.DT = s.DT := rfl
@[simp] theorem State.advancePc_ST : s.advancePc.ST = s.ST := rfl
@[simp] theorem State.advancePc_px : s.advancePc.px = s.px := rfl
@[simp] theorem State.advancePc_dirty : s.advancePc.dirty = s.dirty := rfl
@[simp] theorem State.advancePc_needsRedraw : s.advancePc.needsRedraw = s.needsRedraw := rfl
@[simp] theorem State.advancePc_runState : s.advancePc.runState = s.runState := rfl
@[simp] theorem State.advancePc_pressed : s.advancePc.pressed = s.pressed := rfl
@[simp] theorem State.advancePc_lastKey : s.advancePc.lastKey = s.lastKey := rfl
@[simp] theorem State.advancePc_draws : s.advancePc.draws = s.draws := rfl
@[simp] theorem State.advancePc_schedule : s.advancePc.schedule = s.schedule := rfl

end Sys2Proof.Machine
end

