-- ==== Sys2Proof/Laws/Registers.lean ====
section
/-! SUPPORT. Register access: what a read gives after a write, and after an update of another field; the flag
write; the register block. -/

namespace Sys2Proof.Machine

variable (s : State)

/-- A register reads as what was last written to it, and no other register changes. -/
@[simp] theorem State.readV_setV (x y : Nibble) (v : Byte) :
    (s.setV x v).readV y = if y = x then v else s.readV y := by
  simp only [State.readV, State.setV, Vector.getElem_set, BitVec.toNat_inj, eq_comm]

/-- Reading a register depends on the register file only. -/
theorem State.readV_congr {s t : State} (h : s.V = t.V) (x : Nibble) : s.readV x = t.readV x := by
  simp [State.readV, h]

/-- Two register files whose every register reads the same are equal. -/
theorem State.V_ext {s t : State} (h : ∀ x, s.readV x = t.readV x) : s.V = t.V := by
  apply Vector.ext
  intro i hi
  have := h (BitVec.ofNat 4 i)
  have hm : i % 16 = i := Nat.mod_eq_of_lt hi
  simpa [State.readV, hm] using this

@[simp] theorem State.readV_setMem (m : Memory) (x : Nibble) : (s.setMem m).readV x = s.readV x := rfl
@[simp] theorem State.readV_setI (a : Word) (x : Nibble) : (s.setI a).readV x = s.readV x := rfl
@[simp] theorem State.readV_setPc (a : Word) (x : Nibble) : (s.setPc a).readV x = s.readV x := rfl
@[simp] theorem State.readV_advancePc (x : Nibble) : s.advancePc.readV x = s.readV x := rfl
@[simp] theorem State.readV_setStack (st : List Word) (x : Nibble) : (s.setStack st).readV x = s.readV x := rfl
@[simp] theorem State.readV_setDT (v : Byte) (x : Nibble) : (s.setDT v).readV x = s.readV x := rfl
@[simp] theorem State.readV_setST (v : Byte) (x : Nibble) : (s.setST v).readV x = s.readV x := rfl
@[simp] theorem State.readV_setDisplay (p d : Grid) (x : Nibble) : (s.setDisplay p d).readV x = s.readV x := rfl
@[simp] theorem State.readV_setRedraw (b : Bool) (x : Nibble) : (s.setRedraw b).readV x = s.readV x := rfl
@[simp] theorem State.readV_setRun (r : RunState) (x : Nibble) : (s.setRun r).readV x = s.readV x := rfl
@[simp] theorem State.readV_setKeys (k : BitVec 16) (l : Option Nibble) (x : Nibble) :
    (s.setKeys k l).readV x = s.readV x := rfl
@[simp] theorem State.readV_takeDraw (x : Nibble) : s.takeDraw.readV x = s.readV x := rfl
@[simp] theorem State.readV_setSchedule (ts : List Turn) (x : Nibble) : (s.setSchedule ts).readV x = s.readV x := rfl

/-- Everything `setResultFlag` does to the registers: VF is the flag, `V[x]` the result unless `x` is F. -/
theorem readV_setResultFlag (x y : Nibble) (result flag : Byte) :
    (setResultFlag s x result flag).readV y =
      if y = vf then flag else if y = x then result else s.readV y := by
  simp [setResultFlag]

/-- `setResultFlag` changes the register file only. -/
theorem setResultFlag_frame (x : Nibble) (result flag : Byte) :
    setResultFlag s x result flag = { s with V := (setResultFlag s x result flag).V } := rfl

/-- `setV` changes the register file only. -/
theorem setV_frame (x : Nibble) (v : Byte) : s.setV x v = { s with V := (s.setV x v).V } := rfl

/-- Writing a block of registers changes the register file only. -/
theorem setRegsFrom_frame (vs : List Byte) :
    ∀ (s : State) (k : Nat), setRegsFrom s k vs = { s with V := (setRegsFrom s k vs).V } := by
  induction vs with
  | nil => intro s k; rfl
  | cons v vs ih =>
    intro s k
    simp only [setRegsFrom]
    rw [ih]
    rfl

/-- Everything a block write does: register `k + j` takes byte `j`, the others keep their value. -/
theorem readV_setRegsFrom (vs : List Byte) :
    ∀ (s : State) (k : Nat) (y : Nibble), k + vs.length ≤ 16 →
      (setRegsFrom s k vs).readV y =
        if k ≤ y.toNat ∧ y.toNat < k + vs.length then vs.getD (y.toNat - k) 0 else s.readV y := by
  induction vs with
  | nil =>
    intro s k y _
    rw [if_neg (by simp)]
    rfl
  | cons v vs ih =>
    intro s k y hk
    simp only [List.length_cons] at hk ⊢
    simp only [setRegsFrom]
    rw [ih _ _ _ (by omega), State.readV_setV]
    have hy : y = BitVec.ofNat 4 k ↔ y.toNat = k := by
      rw [← BitVec.toNat_inj, BitVec.toNat_ofNat, Nat.mod_eq_of_lt (by omega)]
    by_cases h1 : y.toNat = k
    · rw [if_neg (by omega), if_pos (hy.mpr h1), if_pos (by omega), h1, Nat.sub_self]
      rfl
    · rw [if_neg (mt hy.mp h1)]
      by_cases h2 : k + 1 ≤ y.toNat ∧ y.toNat < k + 1 + vs.length
      · rw [if_pos h2, if_pos (by omega), show y.toNat - k = (y.toNat - (k + 1)) + 1 by omega]
        simp
      · rw [if_neg h2, if_neg (by omega)]

@[simp] theorem regsFrom_length (n : Nat) : ∀ k, (regsFrom s k n).length = n := by
  induction n with
  | zero => intro k; rfl
  | succ n ih => intro k; simp [regsFrom, ih]

/-- Byte `j` of a register block is register `k + j`. -/
theorem regsFrom_getD (n : Nat) : ∀ (k j : Nat), j < n →
    (regsFrom s k n).getD j 0 = s.readV (BitVec.ofNat 4 (k + j)) := by
  induction n with
  | zero => intro k j h; omega
  | succ n ih =>
    intro k j h
    cases j with
    | zero => rfl
    | succ j =>
      have := ih (k + 1) j (by omega)
      rw [show k + 1 + j = k + (j + 1) by omega] at this
      simpa [regsFrom] using this

@[simp] theorem regBlock_length (x : Nibble) : (regBlock s x).length = blockLen x := by simp [regBlock]

end Sys2Proof.Machine
end

