-- ==== Sys2Proof/Laws/Display.lean ====
section
/-! SUPPORT. The grids cell by cell, and what drawing a sprite does to them. -/

namespace Sys2Proof.Machine

/-- Two grids whose cells agree are equal. -/
theorem Grid.ext_cell {a b : Grid} (h : ∀ r c, r < 32 → c < 64 → a.cell r c = b.cell r c) : a = b := by
  apply Vector.ext
  intro r hr
  apply BitVec.eq_of_getLsbD_eq
  intro c hc
  simpa [Grid.cell, hr] using h r c hr hc

@[simp] theorem Grid.cell_blank (r c : Nat) : Grid.blank.cell r c = false := by
  simp [Grid.cell, Grid.blank]

/-- Cells outside the grid read as off. -/
theorem Grid.cell_outside (g : Grid) {r c : Nat} (h : 32 ≤ r ∨ 64 ≤ c) : g.cell r c = false := by
  unfold Grid.cell
  split
  · exact BitVec.getLsbD_of_ge _ _ (by omega)
  · rfl

@[simp] theorem Grid.cell_xor (a b : Grid) (r c : Nat) : (a.xor b).cell r c = (a.cell r c ^^ b.cell r c) := by
  unfold Grid.cell
  split
  · rename_i h
    have : (a.xor b)[r]'h = a[r]'h ^^^ b[r]'h := by simp [Grid.xor]
    rw [this, BitVec.getLsbD_xor]
  · rfl

/-- Inverting a cell changes that cell and no other. -/
theorem Grid.cell_toggle (g : Grid) (r c r' c' : Nat) (hc : c < 64) :
    (g.toggle r c).cell r' c' = (g.cell r' c' ^^ (decide (r < 32) && decide (r' = r) && decide (c' = c))) := by
  unfold Grid.cell Grid.toggle
  by_cases hr : r < 32
  · simp only [hr, dif_pos, decide_true, Bool.true_and]
    by_cases hr' : r' < 32
    · simp only [hr', dif_pos, Vector.getElem_set]
      by_cases he : r = r'
      · subst he
        simp only [if_true, BitVec.getLsbD_xor, BitVec.getLsbD_twoPow, hc, decide_true, Bool.true_and]
        by_cases h2 : c = c' <;> simp [h2, eq_comm]
      · simp [he, Ne.symm he]
    · simp only [hr', dif_neg, not_false_eq_true]
      have : r' ≠ r := by omega
      simp [this]
  · simp [hr]

/-- A set bit of sprite byte `b`, drawn from start column `vx`, lands on column `col` (`43_display.md` R161 to
R163), for the sprite columns listed. -/
def bitLands (vx : Nat) (b : Byte) (cs : List Nat) (col : Nat) : Bool :=
  cs.any fun c => b.getLsbD (7 - c) && decide (col = (vx + c) % 64)

/-- A set bit of the sprite lands on cell `(r, col)`, for a sprite that starts at row `row`. -/
def spriteLands (vx : Nat) : Nat → List Byte → Nat → Nat → Bool
  | _, [], _, _ => false
  | row, b :: bs, r, col =>
    (decide (row < 32) && decide (r = row) && bitLands vx b [0, 1, 2, 3, 4, 5, 6, 7] col) ||
      spriteLands vx (row + 1) bs r col

/-- A sprite touches no row above its first. -/
theorem spriteLands_above (vx : Nat) (bs : List Byte) : ∀ (row r col : Nat), r < row →
    spriteLands vx row bs r col = false := by
  induction bs with
  | nil => intros; rfl
  | cons b bs ih =>
    intro row r col h
    simp only [spriteLands, ih (row + 1) r col (by omega), Bool.or_false]
    rw [decide_eq_false (by omega : ¬ r = row)]
    simp

/-- Everything the bits of one sprite byte do, for sprite columns that land on different cells. -/
theorem drawBits_spec (vx row : Nat) (b : Byte) (hrow : row < 32) : ∀ (cs : List Nat) (d : Canvas),
    cs.Pairwise (fun c c' => (vx + c) % 64 ≠ (vx + c') % 64) →
    (∀ r c, (drawBits vx row b cs d).px.cell r c = (d.px.cell r c ^^ (decide (r = row) && bitLands vx b cs c))) ∧
    (∀ r c, (drawBits vx row b cs d).dirty.cell r c = (d.dirty.cell r c ^^ (decide (r = row) && bitLands vx b cs c))) ∧
    ((drawBits vx row b cs d).coll = true ↔
      d.coll = true ∨ ∃ c, bitLands vx b cs c = true ∧ d.px.cell row c = true) := by
  intro cs
  induction cs with
  | nil => intro d _; simp [drawBits, bitLands]
  | cons c0 cs ih =>
    intro d hp
    obtain ⟨h0, hp⟩ := List.pairwise_cons.mp hp
    have hcol : (vx + c0) % 64 < 64 := Nat.mod_lt _ (by decide)
    have hd : Config.dispW = 64 := rfl
    have hno : bitLands vx b cs ((vx + c0) % 64) = false := by
      simp only [bitLands, List.any_eq_false, Bool.and_eq_true, decide_eq_true_eq, not_and]
      intro c hc _
      exact h0 c hc
    have hcons : ∀ col, bitLands vx b (c0 :: cs) col =
        ((b.getLsbD (7 - c0) && decide (col = (vx + c0) % 64)) || bitLands vx b cs col) := fun _ => rfl
    simp only [drawBits, hd]
    by_cases hb : b.getLsbD (7 - c0) = true
    · obtain ⟨i1, i2, i3⟩ := ih (plot row ((vx + c0) % 64) d) hp
      simp only [hb, if_true] at *
      refine ⟨?_, ?_, ?_⟩
      · intro r c
        rw [i1, hcons, plot]
        simp only [Grid.cell_toggle _ _ _ _ _ hcol, hrow, decide_true, Bool.true_and]
        by_cases hc : c = (vx + c0) % 64
        · subst hc; rw [hno]; by_cases hr : r = row <;> simp [hr]
        · simp [hc]
      · intro r c
        rw [i2, hcons, plot]
        simp only [Grid.cell_toggle _ _ _ _ _ hcol, hrow, decide_true, Bool.true_and]
        by_cases hc : c = (vx + c0) % 64
        · subst hc; rw [hno]; by_cases hr : r = row <;> simp [hr]
        · simp [hc]
      · rw [i3, plot]
        simp only [Grid.cell_toggle _ _ _ _ _ hcol, hrow, decide_true, Bool.true_and, Bool.or_eq_true, hcons,
          decide_eq_true_eq]
        constructor
        · rintro ((h | h) | ⟨c, h1, h2⟩)
          · exact .inl h
          · exact .inr ⟨_, .inl rfl, h⟩
          · refine .inr ⟨c, .inr h1, ?_⟩
            have : c ≠ (vx + c0) % 64 := by rintro rfl; rw [hno] at h1; exact Bool.noConfusion h1
            simpa [this] using h2
        · rintro (h | ⟨c, rfl | h1, h2⟩)
          · exact .inl (.inl h)
          · exact .inl (.inr h2)
          · refine .inr ⟨c, h1, ?_⟩
            have : c ≠ (vx + c0) % 64 := by rintro rfl; rw [hno] at h1; exact Bool.noConfusion h1
            simpa [this] using h2
    · have hb' : b.getLsbD (7 - c0) = false := by simpa using hb
      simpa [hb', hcons] using ih d hp

/-- The eight columns of a sprite row are different cells. -/
theorem spriteColumns_differ (vx : Nat) :
    [0, 1, 2, 3, 4, 5, 6, 7].Pairwise (fun c c' => (vx + c) % 64 ≠ (vx + c') % 64) := by
  simp only [List.pairwise_cons, List.mem_cons, List.not_mem_nil, or_false, List.Pairwise.nil, and_true]
  refine ⟨?_, ?_, ?_, ?_, ?_, ?_, ?_, ?_⟩ <;> intro c hc <;>
    first | omega | simp at hc

/-- Everything drawing a sprite does (`43_display.md` R161, R164): a cell is inverted exactly where a set bit
lands, `dirty` likewise, and there is a collision exactly where a set bit lands on a cell that was on. -/
theorem drawSprite_spec (vx : Nat) (bs : List Byte) : ∀ (row : Nat) (d : Canvas),
    (∀ r c, (drawSprite vx row bs d).px.cell r c = (d.px.cell r c ^^ spriteLands vx row bs r c)) ∧
    (∀ r c, (drawSprite vx row bs d).dirty.cell r c = (d.dirty.cell r c ^^ spriteLands vx row bs r c)) ∧
    ((drawSprite vx row bs d).coll = true ↔
      d.coll = true ∨ ∃ r c, spriteLands vx row bs r c = true ∧ d.px.cell r c = true) := by
  induction bs with
  | nil => intro row d; simp [drawSprite, spriteLands]
  | cons b bs ih =>
    intro row d
    have hH : Config.dispH = 32 := rfl
    simp only [drawSprite]
    by_cases hrow : row < 32
    · have hd : drawRow vx row b d = drawBits vx row b [0, 1, 2, 3, 4, 5, 6, 7] d := by simp [drawRow, hH, hrow]
      rw [hd]
      obtain ⟨j1, j2, j3⟩ := drawBits_spec vx row b hrow _ d (spriteColumns_differ vx)
      obtain ⟨i1, i2, i3⟩ := ih (row + 1) (drawBits vx row b [0, 1, 2, 3, 4, 5, 6, 7] d)
      have key : ∀ r c, spriteLands vx row (b :: bs) r c =
          ((decide (r = row) && bitLands vx b [0, 1, 2, 3, 4, 5, 6, 7] c) || spriteLands vx (row + 1) bs r c) := by
        intro r c; simp [spriteLands, hrow]
      have merge : ∀ r c, ((decide (r = row) && bitLands vx b [0, 1, 2, 3, 4, 5, 6, 7] c) ||
          spriteLands vx (row + 1) bs r c) =
          ((decide (r = row) && bitLands vx b [0, 1, 2, 3, 4, 5, 6, 7] c) ^^ spriteLands vx (row + 1) bs r c) := by
        intro r c
        by_cases hr : r = row
        · subst hr; rw [spriteLands_above vx bs _ _ c (Nat.lt_succ_self _)]; simp
        · simp [hr]
      refine ⟨?_, ?_, ?_⟩
      · intro r c; rw [i1, j1, key, merge, Bool.xor_assoc]
      · intro r c; rw [i2, j2, key, merge, Bool.xor_assoc]
      · rw [i3, j3]
        simp only [j1, key, Bool.or_eq_true, Bool.and_eq_true, decide_eq_true_eq]
        constructor
        · rintro ((h | ⟨c, h1, h2⟩) | ⟨r, c, h1, h2⟩)
          · exact .inl h
          · exact .inr ⟨row, c, .inl ⟨rfl, h1⟩, h2⟩
          · refine .inr ⟨r, c, .inr h1, ?_⟩
            have hr : r ≠ row := by
              rintro rfl
              rw [spriteLands_above vx bs _ _ c (Nat.lt_succ_self _)] at h1
              exact Bool.noConfusion h1
            simpa [hr] using h2
        · rintro (h | ⟨r, c, ⟨rfl, h1⟩ | h1, h2⟩)
          · exact .inl (.inl h)
          · exact .inl (.inr ⟨c, h1, h2⟩)
          · refine .inr ⟨r, c, h1, ?_⟩
            have hr : r ≠ row := by
              rintro rfl
              rw [spriteLands_above vx bs _ _ c (Nat.lt_succ_self _)] at h1
              exact Bool.noConfusion h1
            simpa [hr] using h2
    · have hd : drawRow vx row b d = d := by simp [drawRow, hH, hrow]
      have key : ∀ r c, spriteLands vx row (b :: bs) r c = spriteLands vx (row + 1) bs r c := by
        intro r c; simp [spriteLands, hrow]
      rw [hd]
      simpa only [key] using ih (row + 1) d

/-- Where the set bits of one sprite byte land, as a statement about its columns. -/
theorem bitLands_iff (vx : Nat) (b : Byte) (col : Nat) :
    bitLands vx b [0, 1, 2, 3, 4, 5, 6, 7] col = true ↔
      ∃ j, j < 8 ∧ col = (vx + j) % 64 ∧ b.getLsbD (7 - j) = true := by
  simp only [bitLands, List.any_eq_true, Bool.and_eq_true, decide_eq_true_eq]
  constructor
  · rintro ⟨j, hj, hb, hc⟩
    exact ⟨j, by simp only [List.mem_cons, List.not_mem_nil, or_false] at hj; omega, hc, hb⟩
  · rintro ⟨j, hj, hc, hb⟩
    exact ⟨j, by simp only [List.mem_cons, List.not_mem_nil, or_false]; omega, hb, hc⟩

/-- Where the set bits of a sprite in memory land (`43_display.md` R161 to R163): on rows inside the display, in the
sprite's row `r - row`. -/
theorem spriteLands_iff (m : Memory) (vx n : Nat) : ∀ (a row r col : Nat),
    spriteLands vx row (m.readBytes a n) r col = true ↔
      r < 32 ∧ row ≤ r ∧ r < row + n ∧
        ∃ j, j < 8 ∧ col = (vx + j) % 64 ∧ (m.readByte (a + (r - row))).getLsbD (7 - j) = true := by
  induction n with
  | zero => intro a row r col; simp only [Memory.readBytes, spriteLands]; constructor <;> intro h <;> [simp at h; omega]
  | succ n ih =>
    intro a row r col
    simp only [Memory.readBytes, spriteLands, Bool.or_eq_true, Bool.and_eq_true, decide_eq_true_eq, ih, bitLands_iff]
    by_cases hr : r = row
    · subst hr
      rw [Nat.sub_self, Nat.add_zero]
      constructor
      · rintro (⟨⟨h1, -⟩, h2⟩ | ⟨-, h, -⟩)
        · exact ⟨h1, Nat.le_refl _, by omega, h2⟩
        · omega
      · rintro ⟨h1, -, -, h2⟩
        exact .inl ⟨⟨h1, rfl⟩, h2⟩
    · constructor
      · rintro (⟨⟨-, h⟩, -⟩ | ⟨h1, h2, h3, j, h4, h5, h6⟩)
        · exact absurd h hr
        · exact ⟨h1, by omega, by omega, j, h4, h5, by rwa [show a + (r - row) = a + 1 + (r - (row + 1)) by omega]⟩
      · rintro ⟨h1, h2, h3, j, h4, h5, h6⟩
        exact .inr ⟨h1, by omega, by omega, j, h4, h5,
          by rwa [show a + 1 + (r - (row + 1)) = a + (r - row) by omega]⟩

end Sys2Proof.Machine
end

