-- ==== Sys2Proof/Laws/Memory.lean ====
section
/-! SUPPORT. Memory: a byte reads as what was last written to it, a write leaves every other byte alone, and every
operation keeps the canonical form. -/

namespace Sys2Proof.Machine

@[simp] theorem memSize_eq : Config.memSize = 4096 := rfl

/-- Taking the cells of an address out leaves every other address as it was. -/
theorem Memory.readByte_filter (m : Memory) (a a' : Nat) :
    Memory.readByte (m.filter (·.1 != a)) a' = if a' = a then resetByte a else m.readByte a' := by
  induction m with
  | nil => simp only [List.filter_nil, Memory.readByte]; split <;> simp_all
  | cons c m ih =>
    obtain ⟨k, b⟩ := c
    by_cases hk : k = a
    · subst hk
      simp only [List.filter_cons, bne_self_eq_false, Bool.false_eq_true, if_false, ih, Memory.readByte]
      by_cases h : a' = k <;> simp [h, eq_comm]
    · simp only [List.filter_cons, bne_iff_ne, ne_eq, hk, not_false_eq_true, if_true, Memory.readByte, ih]
      by_cases h : k = a'
      · subst h; simp [hk]
      · simp [h]

/-- An inserted cell is read at its address and hides nothing else, where its address is not listed. -/
theorem Memory.readByte_insert (m : Memory) (a a' : Nat) (v : Byte) (h : ∀ c ∈ m, c.1 ≠ a) :
    Memory.readByte (Memory.insert m a v) a' = if a' = a then v else m.readByte a' := by
  induction m with
  | nil => simp [Memory.insert, Memory.readByte, eq_comm]
  | cons c m ih =>
    obtain ⟨k, b⟩ := c
    have hk : k ≠ a := h (k, b) (by simp)
    have hm : ∀ c ∈ m, c.1 ≠ a := fun c hc => h c (by simp [hc])
    by_cases hlt : a < k
    · simp only [Memory.insert, hlt, if_true, Memory.readByte, eq_comm]
    · simp only [Memory.insert, hlt, if_false, Memory.readByte, ih hm]
      by_cases hka : k = a'
      · subst hka; simp [hk]
      · simp [hka]

/-- Read after write, of one byte. -/
@[simp] theorem Memory.readByte_writeByte (m : Memory) (a a' : Nat) (v : Byte) :
    (m.writeByte a v).readByte a' = if a' = a then v else m.readByte a' := by
  unfold Memory.writeByte
  split
  · rename_i hv
    rw [Memory.readByte_filter]
    split
    · exact hv.symm
    · rfl
  · rw [Memory.readByte_insert _ _ _ _ (by intro c hc; simpa using (List.mem_filter.mp hc).2),
      Memory.readByte_filter]
    by_cases h : a' = a <;> simp [h]

/-- Read after write, of a list of bytes: byte `j` of the list is at `a + j`, every other byte is as before. -/
theorem Memory.readByte_writeBytes (vs : List Byte) : ∀ (m : Memory) (a a' : Nat),
    (m.writeBytes a vs).readByte a' =
      if a ≤ a' ∧ a' < a + vs.length then vs.getD (a' - a) 0 else m.readByte a' := by
  induction vs with
  | nil => intro m a a'; rw [if_neg (by simp)]; rfl
  | cons v vs ih =>
    intro m a a'
    simp only [Memory.writeBytes, ih, Memory.readByte_writeByte, List.length_cons]
    by_cases h1 : a' = a
    · subst h1
      rw [if_neg (by omega), if_pos rfl, if_pos (by omega), Nat.sub_self]
      rfl
    · rw [if_neg h1]
      by_cases h2 : a + 1 ≤ a' ∧ a' < a + 1 + vs.length
      · rw [if_pos h2, if_pos (by omega), show a' - a = (a' - (a + 1)) + 1 by omega]
        simp
      · rw [if_neg h2, if_neg (by omega)]

@[simp] theorem Memory.readBytes_length (m : Memory) (n : Nat) : ∀ a, (m.readBytes a n).length = n := by
  induction n with
  | zero => intro a; rfl
  | succ n ih => intro a; simp [Memory.readBytes, ih]

/-- Byte `j` of a read is the byte at `a + j`. -/
theorem Memory.readBytes_getD (m : Memory) (n : Nat) : ∀ (a j : Nat), j < n →
    (m.readBytes a n).getD j 0 = m.readByte (a + j) := by
  induction n with
  | zero => intro a j h; omega
  | succ n ih =>
    intro a j h
    cases j with
    | zero => rfl
    | succ j =>
      have := ih (a + 1) j (by omega)
      rw [show a + 1 + j = a + (j + 1) by omega] at this
      simpa [Memory.readBytes] using this

/-- Two memories whose every byte reads the same give the same list of bytes. -/
theorem Memory.readBytes_congr {m m' : Memory} (n : Nat) : ∀ a,
    (∀ j, j < n → m.readByte (a + j) = m'.readByte (a + j)) → m.readBytes a n = m'.readBytes a n := by
  induction n with
  | zero => intro a _; rfl
  | succ n ih =>
    intro a h
    simp only [Memory.readBytes]
    rw [ih (a + 1) (fun j hj => by simpa [Nat.add_assoc, Nat.add_comm 1 j] using h (j + 1) (by omega))]
    simpa using h 0 (by omega)

/-- When a read is answered, and with what (`20_memory.md` R52). -/
theorem memRead_eq_some (m : Memory) (a n : Nat) (bs : List Byte) :
    memRead m a n = some bs ↔ a + n ≤ 4096 ∧ bs = m.readBytes a n := by
  simp only [memRead, inBounds, memSize_eq, decide_eq_true_eq]
  split <;> simp_all [eq_comm]

/-- When a read is out of bounds (`20_memory.md` R52). -/
theorem memRead_eq_none (m : Memory) (a n : Nat) : memRead m a n = none ↔ 4096 < a + n := by
  simp only [memRead, inBounds, memSize_eq, decide_eq_true_eq]
  split <;> simp_all

/-- When a write is done, and what it makes of memory (`20_memory.md` R53). -/
theorem memWrite_eq_some (m m' : Memory) (a : Nat) (vs : List Byte) :
    memWrite m a vs = some m' ↔ a + vs.length ≤ 4096 ∧ m' = m.writeBytes a vs := by
  simp only [memWrite, inBounds, memSize_eq, decide_eq_true_eq]
  split <;> simp_all [eq_comm]

/-- When a write is out of bounds (`20_memory.md` R53). -/
theorem memWrite_eq_none (m : Memory) (a : Nat) (vs : List Byte) :
    memWrite m a vs = none ↔ 4096 < a + vs.length := by
  simp only [memWrite, inBounds, memSize_eq, decide_eq_true_eq]
  split <;> simp_all

/-- The cells of a memory with a cell inserted. -/
theorem Memory.mem_insert (m : Memory) (a : Nat) (v : Byte) (c : Host.Cell) :
    c ∈ Memory.insert m a v ↔ c = (a, v) ∨ c ∈ m := by
  induction m with
  | nil => simp [Memory.insert]
  | cons d m ih =>
    obtain ⟨k, b⟩ := d
    simp only [Memory.insert]
    split
    · simp
    · simp only [List.mem_cons, ih]; tauto

/-- Inserting a cell keeps the addresses rising, where its address is not listed. -/
theorem Memory.insert_rising (m : Memory) (a : Nat) (v : Byte) (h : ∀ c ∈ m, c.1 ≠ a)
    (hm : m.Pairwise (·.1 < ·.1)) : (Memory.insert m a v).Pairwise (·.1 < ·.1) := by
  induction m with
  | nil => simp [Memory.insert]
  | cons d m ih =>
    obtain ⟨k, b⟩ := d
    have hk : k ≠ a := h (k, b) (by simp)
    obtain ⟨hd, hr⟩ := List.pairwise_cons.mp hm
    simp only [Memory.insert]
    split
    · rename_i hlt
      refine List.pairwise_cons.mpr ⟨?_, hm⟩
      intro c hc
      rcases List.mem_cons.mp hc with rfl | hc
      · exact hlt
      · exact Nat.lt_trans hlt (hd c hc)
    · rename_i hlt
      refine List.pairwise_cons.mpr ⟨?_, ih (fun c hc => h c (by simp [hc])) hr⟩
      intro c hc
      rcases (Memory.mem_insert m a v c).mp hc with rfl | hc
      · exact lt_of_le_of_ne (Nat.not_lt.mp hlt) hk
      · exact hd c hc

/-- A write of one byte keeps the canonical form. -/
theorem Memory.writeByte_wf {m : Memory} (hm : m.wf) {a : Nat} (ha : a < 4096) (v : Byte) : (m.writeByte a v).wf := by
  have hf : Memory.wf (m.filter (·.1 != a)) :=
    ⟨hm.1.filter _, fun c hc => hm.2 c (List.mem_filter.mp hc).1⟩
  unfold Memory.writeByte
  split
  · exact hf
  · rename_i hv
    refine ⟨Memory.insert_rising _ _ _ (by intro c hc; simpa using (List.mem_filter.mp hc).2) hf.1, ?_⟩
    intro c hc
    rcases (Memory.mem_insert _ _ _ _).mp hc with rfl | hc
    · exact ⟨ha, hv⟩
    · exact hf.2 c hc

/-- A write of a list of bytes keeps the canonical form. -/
theorem Memory.writeBytes_wf (vs : List Byte) : ∀ {m : Memory} (_ : m.wf) {a : Nat} (_ : a + vs.length ≤ 4096),
    (m.writeBytes a vs).wf := by
  induction vs with
  | nil => intro m hm a _; exact hm
  | cons v vs ih =>
    intro m hm a ha
    simp only [List.length_cons] at ha
    exact ih (Memory.writeByte_wf hm (by omega) v) (by omega)

/-- `MemWrite` keeps the canonical form. -/
theorem memWrite_wf {m m' : Memory} (hm : m.wf) {a : Nat} {vs : List Byte} (h : memWrite m a vs = some m') : m'.wf := by
  obtain ⟨hb, rfl⟩ := (memWrite_eq_some m m' a vs).mp h
  exact Memory.writeBytes_wf vs hm hb

/-- Two memories in canonical form that read the same everywhere are equal. -/
theorem Memory.ext_of_wf : ∀ {m m' : Memory}, m.wf → m'.wf → (∀ a, m.readByte a = m'.readByte a) → m = m' := by
  have unlisted : ∀ (m : Memory) (a : Nat), (∀ c ∈ m, a < c.1) → m.readByte a = resetByte a := by
    intro m
    induction m with
    | nil => intro a _; rfl
    | cons c m ih =>
      intro a h
      obtain ⟨k, b⟩ := c
      have : a < k := h (k, b) (by simp)
      simp only [Memory.readByte]
      rw [if_neg (by omega), ih a (fun c hc => h c (by simp [hc]))]
  have tail_wf : ∀ {c : Host.Cell} {m : Memory}, Memory.wf (c :: m) → Memory.wf m := fun h =>
    ⟨(List.pairwise_cons.mp h.1).2, fun c hc => h.2 c (by simp [hc])⟩
  intro m
  induction m with
  | nil =>
    intro m' _ hm' h
    cases m' with
    | nil => rfl
    | cons c m' =>
      obtain ⟨k, b⟩ := c
      have := h k
      simp only [Memory.readByte, if_true] at this
      exact absurd this.symm (hm'.2 (k, b) (by simp)).2
  | cons c m ih =>
    intro m' hm hm' h
    obtain ⟨k, b⟩ := c
    cases m' with
    | nil =>
      have := h k
      simp only [Memory.readByte, if_true] at this
      exact absurd this (hm.2 (k, b) (by simp)).2
    | cons c' m' =>
      obtain ⟨k', b'⟩ := c'
      have hd := (List.pairwise_cons.mp hm.1).1
      have hd' := (List.pairwise_cons.mp hm'.1).1
      have hkk : k = k' := by
        rcases Nat.lt_trichotomy k k' with hlt | heq | hgt
        · have := h k
          simp only [Memory.readByte, if_true] at this
          rw [if_neg (by omega), unlisted m' k (fun c hc => Nat.lt_trans hlt (hd' c hc))] at this
          exact absurd this (hm.2 (k, b) (by simp)).2
        · exact heq
        · have := h k'
          simp only [Memory.readByte, if_true] at this
          rw [if_neg (by omega), unlisted m k' (fun c hc => Nat.lt_trans hgt (hd c hc))] at this
          exact absurd this.symm (hm'.2 (k', b') (by simp)).2
      subst hkk
      have hb : b = b' := by simpa [Memory.readByte] using h k
      subst hb
      rw [ih (tail_wf hm) (tail_wf hm')]
      intro a
      have := h a
      simp only [Memory.readByte] at this
      by_cases hka : k = a
      · subst hka
        rw [unlisted m k (fun c hc => hd c hc), unlisted m' k (fun c hc => hd' c hc)]
      · simpa [hka] using this

end Sys2Proof.Machine
end

