-- ==== Sys2Proof/Laws/PerInstr.lean ====
section
/-! SUPPORT. Statements made instruction by instruction. -/

namespace Sys2Proof.Laws

/-- The word an instruction is encoded as selects the row of `30_encoding.md` R80 that bears its own name. -/
def EncodingSelectsOwnRow.Statement (i : Instr) : Prop :=
  ∃ r ∈ opTable, r.mnemonic = i.mnemonic ∧ r.selects (encodeWord i) = true

/-- A row of the opcode map, found at its place, settles the statement of its instruction. -/
theorem EncodingSelectsOwnRow.of_row {i : Instr} (r : OpRow) (k : Nat) (hk : opTable[k]? = some r)
    (hm : r.mnemonic = i.mnemonic) (hs : r.selects (encodeWord i) = true) : EncodingSelectsOwnRow.Statement i :=
  ⟨r, List.mem_of_getElem? hk, hm, hs⟩

theorem EncodingSelectsOwnRow.cls : EncodingSelectsOwnRow.Statement .cls :=
  EncodingSelectsOwnRow.of_row ⟨"CLS", 0xFFFF, 0x00E0, fun _ => .cls⟩ 0 rfl rfl
    (by simp [selects_eq, encodeWord, fieldOp_ofNat, fieldX_ofNat, fieldY_ofNat, fieldN_ofNat])

theorem EncodingSelectsOwnRow.ret : EncodingSelectsOwnRow.Statement .ret :=
  EncodingSelectsOwnRow.of_row ⟨"RET", 0xFFFF, 0x00EE, fun _ => .ret⟩ 1 rfl rfl
    (by simp [selects_eq, encodeWord, fieldOp_ofNat, fieldX_ofNat, fieldY_ofNat, fieldN_ofNat])

theorem EncodingSelectsOwnRow.jp (nnn : Addr12) : EncodingSelectsOwnRow.Statement (.jp nnn) :=
  EncodingSelectsOwnRow.of_row ⟨"JP", 0xF000, 0x1000, fun w => .jp (fieldNNN w)⟩ 2 rfl rfl
    (by simp [selects_eq, encodeWord, fieldOp_ofNat, fieldX_ofNat, fieldY_ofNat, fieldN_ofNat])

theorem EncodingSelectsOwnRow.call (nnn : Addr12) : EncodingSelectsOwnRow.Statement (.call nnn) :=
  EncodingSelectsOwnRow.of_row ⟨"CALL", 0xF000, 0x2000, fun w => .call (fieldNNN w)⟩ 3 rfl rfl
    (by simp [selects_eq, encodeWord, fieldOp_ofNat, fieldX_ofNat, fieldY_ofNat, fieldN_ofNat])

theorem EncodingSelectsOwnRow.seImm (x : Nibble) (kk : Byte) : EncodingSelectsOwnRow.Statement (.seImm x kk) :=
  EncodingSelectsOwnRow.of_row ⟨"SE_IMM", 0xF000, 0x3000, fun w => .seImm (fieldX w) (fieldKK w)⟩ 4 rfl rfl
    (by simp [selects_eq, encodeWord, fieldOp_ofNat, fieldX_ofNat, fieldY_ofNat, fieldN_ofNat])

theorem EncodingSelectsOwnRow.sneImm (x : Nibble) (kk : Byte) : EncodingSelectsOwnRow.Statement (.sneImm x kk) :=
  EncodingSelectsOwnRow.of_row ⟨"SNE_IMM", 0xF000, 0x4000, fun w => .sneImm (fieldX w) (fieldKK w)⟩ 5 rfl rfl
    (by simp [selects_eq, encodeWord, fieldOp_ofNat, fieldX_ofNat, fieldY_ofNat, fieldN_ofNat])

theorem EncodingSelectsOwnRow.seReg (x y : Nibble) : EncodingSelectsOwnRow.Statement (.seReg x y) :=
  EncodingSelectsOwnRow.of_row ⟨"SE_REG", 0xF00F, 0x5000, fun w => .seReg (fieldX w) (fieldY w)⟩ 6 rfl rfl
    (by simp [selects_eq, encodeWord, fieldOp_ofNat, fieldX_ofNat, fieldY_ofNat, fieldN_ofNat])

theorem EncodingSelectsOwnRow.ldImm (x : Nibble) (kk : Byte) : EncodingSelectsOwnRow.Statement (.ldImm x kk) :=
  EncodingSelectsOwnRow.of_row ⟨"LD_IMM", 0xF000, 0x6000, fun w => .ldImm (fieldX w) (fieldKK w)⟩ 7 rfl rfl
    (by simp [selects_eq, encodeWord, fieldOp_ofNat, fieldX_ofNat, fieldY_ofNat, fieldN_ofNat])

theorem EncodingSelectsOwnRow.addImm (x : Nibble) (kk : Byte) : EncodingSelectsOwnRow.Statement (.addImm x kk) :=
  EncodingSelectsOwnRow.of_row ⟨"ADD_IMM", 0xF000, 0x7000, fun w => .addImm (fieldX w) (fieldKK w)⟩ 8 rfl rfl
    (by simp [selects_eq, encodeWord, fieldOp_ofNat, fieldX_ofNat, fieldY_ofNat, fieldN_ofNat])

theorem EncodingSelectsOwnRow.mov (x y : Nibble) : EncodingSelectsOwnRow.Statement (.mov x y) :=
  EncodingSelectsOwnRow.of_row ⟨"MOV", 0xF00F, 0x8000, fun w => .mov (fieldX w) (fieldY w)⟩ 9 rfl rfl
    (by simp [selects_eq, encodeWord, fieldOp_ofNat, fieldX_ofNat, fieldY_ofNat, fieldN_ofNat])

theorem EncodingSelectsOwnRow.or (x y : Nibble) : EncodingSelectsOwnRow.Statement (.or x y) :=
  EncodingSelectsOwnRow.of_row ⟨"OR", 0xF00F, 0x8001, fun w => .or (fieldX w) (fieldY w)⟩ 10 rfl rfl
    (by simp [selects_eq, encodeWord, fieldOp_ofNat, fieldX_ofNat, fieldY_ofNat, fieldN_ofNat])

theorem EncodingSelectsOwnRow.and (x y : Nibble) : EncodingSelectsOwnRow.Statement (.and x y) :=
  EncodingSelectsOwnRow.of_row ⟨"AND", 0xF00F, 0x8002, fun w => .and (fieldX w) (fieldY w)⟩ 11 rfl rfl
    (by simp [selects_eq, encodeWord, fieldOp_ofNat, fieldX_ofNat, fieldY_ofNat, fieldN_ofNat])

theorem EncodingSelectsOwnRow.xor (x y : Nibble) : EncodingSelectsOwnRow.Statement (.xor x y) :=
  EncodingSelectsOwnRow.of_row ⟨"XOR", 0xF00F, 0x8003, fun w => .xor (fieldX w) (fieldY w)⟩ 12 rfl rfl
    (by simp [selects_eq, encodeWord, fieldOp_ofNat, fieldX_ofNat, fieldY_ofNat, fieldN_ofNat])

theorem EncodingSelectsOwnRow.add (x y : Nibble) : EncodingSelectsOwnRow.Statement (.add x y) :=
  EncodingSelectsOwnRow.of_row ⟨"ADD", 0xF00F, 0x8004, fun w => .add (fieldX w) (fieldY w)⟩ 13 rfl rfl
    (by simp [selects_eq, encodeWord, fieldOp_ofNat, fieldX_ofNat, fieldY_ofNat, fieldN_ofNat])

theorem EncodingSelectsOwnRow.sub (x y : Nibble) : EncodingSelectsOwnRow.Statement (.sub x y) :=
  EncodingSelectsOwnRow.of_row ⟨"SUB", 0xF00F, 0x8005, fun w => .sub (fieldX w) (fieldY w)⟩ 14 rfl rfl
    (by simp [selects_eq, encodeWord, fieldOp_ofNat, fieldX_ofNat, fieldY_ofNat, fieldN_ofNat])

theorem EncodingSelectsOwnRow.shr (x y : Nibble) : EncodingSelectsOwnRow.Statement (.shr x y) :=
  EncodingSelectsOwnRow.of_row ⟨"SHR", 0xF00F, 0x8006, fun w => .shr (fieldX w) (fieldY w)⟩ 15 rfl rfl
    (by simp [selects_eq, encodeWord, fieldOp_ofNat, fieldX_ofNat, fieldY_ofNat, fieldN_ofNat])

theorem EncodingSelectsOwnRow.subn (x y : Nibble) : EncodingSelectsOwnRow.Statement (.subn x y) :=
  EncodingSelectsOwnRow.of_row ⟨"SUBN", 0xF00F, 0x8007, fun w => .subn (fieldX w) (fieldY w)⟩ 16 rfl rfl
    (by simp [selects_eq, encodeWord, fieldOp_ofNat, fieldX_ofNat, fieldY_ofNat, fieldN_ofNat])

theorem EncodingSelectsOwnRow.shl (x y : Nibble) : EncodingSelectsOwnRow.Statement (.shl x y) :=
  EncodingSelectsOwnRow.of_row ⟨"SHL", 0xF00F, 0x800E, fun w => .shl (fieldX w) (fieldY w)⟩ 17 rfl rfl
    (by simp [selects_eq, encodeWord, fieldOp_ofNat, fieldX_ofNat, fieldY_ofNat, fieldN_ofNat])

theorem EncodingSelectsOwnRow.sneReg (x y : Nibble) : EncodingSelectsOwnRow.Statement (.sneReg x y) :=
  EncodingSelectsOwnRow.of_row ⟨"SNE_REG", 0xF00F, 0x9000, fun w => .sneReg (fieldX w) (fieldY w)⟩ 18 rfl rfl
    (by simp [selects_eq, encodeWord, fieldOp_ofNat, fieldX_ofNat, fieldY_ofNat, fieldN_ofNat])

theorem EncodingSelectsOwnRow.ldI (nnn : Addr12) : EncodingSelectsOwnRow.Statement (.ldI nnn) :=
  EncodingSelectsOwnRow.of_row ⟨"LD_I", 0xF000, 0xA000, fun w => .ldI (fieldNNN w)⟩ 19 rfl rfl
    (by simp [selects_eq, encodeWord, fieldOp_ofNat, fieldX_ofNat, fieldY_ofNat, fieldN_ofNat])

theorem EncodingSelectsOwnRow.jpV0 (nnn : Addr12) : EncodingSelectsOwnRow.Statement (.jpV0 nnn) :=
  EncodingSelectsOwnRow.of_row ⟨"JP_V0", 0xF000, 0xB000, fun w => .jpV0 (fieldNNN w)⟩ 20 rfl rfl
    (by simp [selects_eq, encodeWord, fieldOp_ofNat, fieldX_ofNat, fieldY_ofNat, fieldN_ofNat])

theorem EncodingSelectsOwnRow.rnd (x : Nibble) (kk : Byte) : EncodingSelectsOwnRow.Statement (.rnd x kk) :=
  EncodingSelectsOwnRow.of_row ⟨"RND", 0xF000, 0xC000, fun w => .rnd (fieldX w) (fieldKK w)⟩ 21 rfl rfl
    (by simp [selects_eq, encodeWord, fieldOp_ofNat, fieldX_ofNat, fieldY_ofNat, fieldN_ofNat])

theorem EncodingSelectsOwnRow.drw (x y n : Nibble) : EncodingSelectsOwnRow.Statement (.drw x y n) :=
  EncodingSelectsOwnRow.of_row ⟨"DRW", 0xF000, 0xD000, fun w => .drw (fieldX w) (fieldY w) (fieldN w)⟩ 22 rfl rfl
    (by simp [selects_eq, encodeWord, fieldOp_ofNat, fieldX_ofNat, fieldY_ofNat, fieldN_ofNat])

theorem EncodingSelectsOwnRow.skp (x : Nibble) : EncodingSelectsOwnRow.Statement (.skp x) :=
  EncodingSelectsOwnRow.of_row ⟨"SKP", 0xF0FF, 0xE09E, fun w => .skp (fieldX w)⟩ 23 rfl rfl
    (by simp [selects_eq, encodeWord, fieldOp_ofNat, fieldX_ofNat, fieldY_ofNat, fieldN_ofNat])

theorem EncodingSelectsOwnRow.sknp (x : Nibble) : EncodingSelectsOwnRow.Statement (.sknp x) :=
  EncodingSelectsOwnRow.of_row ⟨"SKNP", 0xF0FF, 0xE0A1, fun w => .sknp (fieldX w)⟩ 24 rfl rfl
    (by simp [selects_eq, encodeWord, fieldOp_ofNat, fieldX_ofNat, fieldY_ofNat, fieldN_ofNat])

theorem EncodingSelectsOwnRow.ldVxDt (x : Nibble) : EncodingSelectsOwnRow.Statement (.ldVxDt x) :=
  EncodingSelectsOwnRow.of_row ⟨"LD_VX_DT", 0xF0FF, 0xF007, fun w => .ldVxDt (fieldX w)⟩ 25 rfl rfl
    (by simp [selects_eq, encodeWord, fieldOp_ofNat, fieldX_ofNat, fieldY_ofNat, fieldN_ofNat])

theorem EncodingSelectsOwnRow.ldVxK (x : Nibble) : EncodingSelectsOwnRow.Statement (.ldVxK x) :=
  EncodingSelectsOwnRow.of_row ⟨"LD_VX_K", 0xF0FF, 0xF00A, fun w => .ldVxK (fieldX w)⟩ 26 rfl rfl
    (by simp [selects_eq, encodeWord, fieldOp_ofNat, fieldX_ofNat, fieldY_ofNat, fieldN_ofNat])

theorem EncodingSelectsOwnRow.ldDtVx (x : Nibble) : EncodingSelectsOwnRow.Statement (.ldDtVx x) :=
  EncodingSelectsOwnRow.of_row ⟨"LD_DT_VX", 0xF0FF, 0xF015, fun w => .ldDtVx (fieldX w)⟩ 27 rfl rfl
    (by simp [selects_eq, encodeWord, fieldOp_ofNat, fieldX_ofNat, fieldY_ofNat, fieldN_ofNat])

theorem EncodingSelectsOwnRow.ldStVx (x : Nibble) : EncodingSelectsOwnRow.Statement (.ldStVx x) :=
  EncodingSelectsOwnRow.of_row ⟨"LD_ST_VX", 0xF0FF, 0xF018, fun w => .ldStVx (fieldX w)⟩ 28 rfl rfl
    (by simp [selects_eq, encodeWord, fieldOp_ofNat, fieldX_ofNat, fieldY_ofNat, fieldN_ofNat])

theorem EncodingSelectsOwnRow.addI (x : Nibble) : EncodingSelectsOwnRow.Statement (.addI x) :=
  EncodingSelectsOwnRow.of_row ⟨"ADD_I", 0xF0FF, 0xF01E, fun w => .addI (fieldX w)⟩ 29 rfl rfl
    (by simp [selects_eq, encodeWord, fieldOp_ofNat, fieldX_ofNat, fieldY_ofNat, fieldN_ofNat])

theorem EncodingSelectsOwnRow.ldF (x : Nibble) : EncodingSelectsOwnRow.Statement (.ldF x) :=
  EncodingSelectsOwnRow.of_row ⟨"LD_F", 0xF0FF, 0xF029, fun w => .ldF (fieldX w)⟩ 30 rfl rfl
    (by simp [selects_eq, encodeWord, fieldOp_ofNat, fieldX_ofNat, fieldY_ofNat, fieldN_ofNat])

theorem EncodingSelectsOwnRow.bcd (x : Nibble) : EncodingSelectsOwnRow.Statement (.bcd x) :=
  EncodingSelectsOwnRow.of_row ⟨"BCD", 0xF0FF, 0xF033, fun w => .bcd (fieldX w)⟩ 31 rfl rfl
    (by simp [selects_eq, encodeWord, fieldOp_ofNat, fieldX_ofNat, fieldY_ofNat, fieldN_ofNat])

theorem EncodingSelectsOwnRow.stRegs (x : Nibble) : EncodingSelectsOwnRow.Statement (.stRegs x) :=
  EncodingSelectsOwnRow.of_row ⟨"ST_REGS", 0xF0FF, 0xF055, fun w => .stRegs (fieldX w)⟩ 32 rfl rfl
    (by simp [selects_eq, encodeWord, fieldOp_ofNat, fieldX_ofNat, fieldY_ofNat, fieldN_ofNat])

theorem EncodingSelectsOwnRow.ldRegs (x : Nibble) : EncodingSelectsOwnRow.Statement (.ldRegs x) :=
  EncodingSelectsOwnRow.of_row ⟨"LD_REGS", 0xF0FF, 0xF065, fun w => .ldRegs (fieldX w)⟩ 33 rfl rfl
    (by simp [selects_eq, encodeWord, fieldOp_ofNat, fieldX_ofNat, fieldY_ofNat, fieldN_ofNat])

end Sys2Proof.Laws
end

