-- ==== Sys2Proof/Laws/Stack.lean ====
section
/-! SUPPORT. The call stack: when a push or a pop is done, and everything it does. -/

namespace Sys2Proof.Machine

@[simp] theorem stackDepth_eq : Config.stackDepth = 16 := rfl

/-- A push is done exactly below depth 16, and puts its value on top (`10_state.md` R27). -/
theorem push_eq_some (v : Word) (s t : State) :
    push v s = some t ↔ s.stack.length < 16 ∧ t = s.setStack (v :: s.stack) := by
  simp only [push, stackDepth_eq]
  split <;> simp_all [eq_comm]

/-- When a push overflows (`10_state.md` R27). -/
theorem push_eq_none (v : Word) (s : State) : push v s = none ↔ 16 ≤ s.stack.length := by
  simp only [push, stackDepth_eq]
  split <;> simp_all

/-- A pop is done exactly on a non-empty stack, and takes the top off (`10_state.md` R28). -/
theorem pop_eq_some (a : Word) (s t : State) :
    pop s = some (a, t) ↔ ∃ rest, s.stack = a :: rest ∧ t = s.setStack rest := by
  unfold pop
  split
  · simp_all
  · rename_i v rest h
    simp only [h, Option.some.injEq, Prod.mk.injEq, List.cons.injEq]
    constructor
    · rintro ⟨rfl, rfl⟩; exact ⟨rest, ⟨rfl, rfl⟩, rfl⟩
    · rintro ⟨_, ⟨rfl, rfl⟩, rfl⟩; exact ⟨rfl, rfl⟩

/-- When a pop underflows (`10_state.md` R28). -/
theorem pop_eq_none (s : State) : pop s = none ↔ s.stack = [] := by
  unfold pop
  split <;> simp_all

end Sys2Proof.Machine
end

