-- ==== Sys2Proof/Laws/Step.lean ====
section
/-! SUPPORT. What a step can do, said once: which of the transitions it is, and its outcome in each case. -/

namespace Sys2Proof.Machine

/-- In Faulted there is no step (`60_exceptions.md` R204). -/
theorem step_faulted {s : State} {r : FaultRecord} (h : s.runState = .faulted r) : step s = .fault (faultOf r s) := by
  unfold step takeTurn; rw [h]

/-- On an event's turn the step is that event (`20_memory.md` R61). -/
theorem step_event {s : State} (hf : ∀ r, s.runState ≠ .faulted r) {e : Event} {rest : List Turn}
    (h : s.schedule = .event e :: rest) : step s = .next (applyEvent e (s.setSchedule rest)) := by
  unfold step takeTurn
  rw [h]
  cases hr : s.runState with
  | faulted r => exact absurd hr (hf r)
  | running => rfl
  | awaitingKey x => rfl

/-- On the engine's turn the step is the engine's (`40_flow.md` R100, R101). -/
theorem step_engine {s : State} (hf : ∀ r, s.runState ≠ .faulted r) (h : s.isEngineTurn = true) :
    step s = engineStep s.turnTaken := by
  unfold step takeTurn State.turnTaken
  cases hs : s.schedule with
  | nil =>
    have he : s.setSchedule [] = s := by
      show { s with schedule := [] } = s
      rw [← hs]
    cases hr : s.runState with
    | faulted r => exact absurd hr (hf r)
    | running => simp only [List.tail_nil, he]
    | awaitingKey x => simp only [List.tail_nil, he]
  | cons t rest =>
    cases t with
    | event e => simp [State.isEngineTurn, hs] at h
    | engine =>
      cases hr : s.runState with
      | faulted r => exact absurd hr (hf r)
      | running => rfl
      | awaitingKey x => rfl

@[simp] theorem State.turnTaken_mem (s : State) : s.turnTaken.mem = s.mem := rfl
@[simp] theorem State.turnTaken_V (s : State) : s.turnTaken.V = s.V := rfl
@[simp] theorem State.turnTaken_I (s : State) : s.turnTaken.I = s.I := rfl
@[simp] theorem State.turnTaken_pc (s : State) : s.turnTaken.pc = s.pc := rfl
@[simp] theorem State.turnTaken_stack (s : State) : s.turnTaken.stack = s.stack := rfl
@[simp] theorem State.turnTaken_DT (s : State) : s.turnTaken.DT = s.DT := rfl
@[simp] theorem State.turnTaken_ST (s : State) : s.turnTaken.ST = s.ST := rfl
@[simp] theorem State.turnTaken_px (s : State) : s.turnTaken.px = s.px := rfl
@[simp] theorem State.turnTaken_dirty (s : State) : s.turnTaken.dirty = s.dirty := rfl
@[simp] theorem State.turnTaken_needsRedraw (s : State) : s.turnTaken.needsRedraw = s.needsRedraw := rfl
@[simp] theorem State.turnTaken_runState (s : State) : s.turnTaken.runState = s.runState := rfl
@[simp] theorem State.turnTaken_pressed (s : State) : s.turnTaken.pressed = s.pressed := rfl
@[simp] theorem State.turnTaken_lastKey (s : State) : s.turnTaken.lastKey = s.lastKey := rfl
@[simp] theorem State.turnTaken_draws (s : State) : s.turnTaken.draws = s.draws := rfl
@[simp] theorem State.turnTaken_readV (s : State) (x : Nibble) : s.turnTaken.readV x = s.readV x := rfl
@[simp] theorem State.turnTaken_keyHeld (s : State) (k : Nat) : s.turnTaken.keyHeld k = s.keyHeld k := rfl
@[simp] theorem State.turnTaken_fetchedWord (s : State) : s.turnTaken.fetchedWord = s.fetchedWord := rfl
@[simp] theorem State.turnTaken_schedule (s : State) : s.turnTaken.schedule = s.schedule.tail := rfl

/-- The two bytes of a fetch. -/
theorem readBytes_two (m : Memory) (a : Nat) : m.readBytes a 2 = [m.readByte a, m.readByte (a + 1)] := rfl

/-- Decoding the two bytes of a word. -/
theorem decode_pair (b0 b1 : Byte) : decode [b0, b1] =
    match decodeWord (wordOfBytes b0 b1) with
    | some i => .instr i []
    | none => .illegal (wordOfBytes b0 b1) := rfl

/-- Everything a step in Running does (`40_flow.md` R100): the fetch fault, the decode fault, or the handler with
`pc` advanced. -/
theorem fetchExecute_eq (s : State) : fetchExecute s =
    if s.pc.toNat + 2 ≤ 4096 then
      match decodeWord s.fetchedWord with
      | some i => exec i s.advancePc
      | none => raiseDecode s.fetchedWord s.advancePc
    else raiseFetch s := by
  unfold fetchExecute
  by_cases h : s.pc.toNat + 2 ≤ 4096
  · rw [if_pos h, (memRead_eq_some _ _ _ _).mpr ⟨h, rfl⟩, readBytes_two]
    simp only [decode_pair, State.fetchedWord]
    cases decodeWord (wordOfBytes (s.mem.readByte s.pc.toNat) (s.mem.readByte (s.pc.toNat + 1))) <;> rfl
  · rw [if_neg h, (memRead_eq_none _ _ _).mpr (by omega)]

/-- The transitions of the machine: what a step that answers a next state has done. -/
theorem step_next_cases {s t : State} (h : step s = .next t) :
    (∃ e rest, s.schedule = .event e :: rest ∧ s.isFaulted = false ∧ t = applyEvent e (s.setSchedule rest)) ∨
    (∃ x, s.runState = .awaitingKey x ∧ s.isEngineTurn = true ∧ t = resolveKey x s.turnTaken) ∨
    (∃ i, s.nextInstr = some i ∧ exec i s.turnTaken.advancePc = .next t) := by
  cases hr : s.runState with
  | faulted r => rw [step_faulted hr] at h; simp at h
  | awaitingKey x =>
    have hf : ∀ r, s.runState ≠ .faulted r := by intro r; rw [hr]; simp
    by_cases ht : s.isEngineTurn = true
    · rw [step_engine hf ht] at h
      refine .inr (.inl ⟨x, rfl, ht, ?_⟩)
      have : s.turnTaken.runState = .awaitingKey x := hr
      simp only [engineStep, this, Host.Outcome.next.injEq] at h
      exact h.symm
    · cases hs : s.schedule with
      | nil => simp [State.isEngineTurn, hs] at ht
      | cons tn rest =>
        cases tn with
        | engine => simp [State.isEngineTurn, hs] at ht
        | event e =>
          rw [step_event hf hs, Host.Outcome.next.injEq] at h
          exact .inl ⟨e, rest, rfl, by simp [State.isFaulted, State.faultRecord, hr], h.symm⟩
  | running =>
    have hf : ∀ r, s.runState ≠ .faulted r := by intro r; rw [hr]; simp
    by_cases ht : s.isEngineTurn = true
    · rw [step_engine hf ht] at h
      have hrt : s.turnTaken.runState = .running := hr
      have hpc : s.turnTaken.pc = s.pc := rfl
      have hfw : s.turnTaken.fetchedWord = s.fetchedWord := rfl
      simp only [engineStep, hrt] at h
      rw [fetchExecute_eq, hpc, hfw] at h
      split at h
      · rename_i hb
        split at h
        · rename_i i hi
          refine .inr (.inr ⟨i, ?_, h⟩)
          simp [State.nextInstr, State.fetches, hr, ht, hb, hi]
        · simp [raiseDecode, raise] at h
      · simp [raiseFetch, raise] at h
    · cases hs : s.schedule with
      | nil => simp [State.isEngineTurn, hs] at ht
      | cons tn rest =>
        cases tn with
        | engine => simp [State.isEngineTurn, hs] at ht
        | event e =>
          rw [step_event hf hs, Host.Outcome.next.injEq] at h
          exact .inl ⟨e, rest, rfl, by simp [State.isFaulted, State.faultRecord, hr], h.symm⟩

@[simp] theorem faultOf_record (r : FaultRecord) (s : State) : (faultOf r s).record = r := by
  unfold faultOf; split <;> rfl

@[simp] theorem faultOf_final (r : FaultRecord) (s : State) : (faultOf r s).final = s := by
  unfold faultOf; split <;> rfl

end Sys2Proof.Machine
end

