-- ==== Sys2Proof/Tests/Slice0.lean ====
section
/-! SUPPORT. The model's own tests: the checks of WellFormed.lean, decoding of words written out from
`30_encoding.md` R80, one step of each instruction with the expected values of `95_test_vectors.md`, and for each
statement with hypotheses a concrete state and operands that meet them. -/

namespace Sys2Proof.Tests

open Sys2Proof Sys2Proof.Machine

/-! Checks -/

theorem test_image_too_long_refused :
    WellFormed.image (List.replicate 3584 0) = true ∧ WellFormed.image (List.replicate 3585 0) = false := by
  simp only [WellFormed.image, List.length_replicate]; decide

theorem test_key_id_16_refused : WellFormed.keyId 15 = true ∧ WellFormed.keyId 16 = false ∧
    keyEventOf true 15 = some (.keyDown 0xF) ∧ keyEventOf true 16 = none := by decide

theorem test_scale_0_refused : WellFormed.scale 1 = true ∧ WellFormed.scale 0 = false := by decide

/-- `95_test_vectors.md` 2.7: the words that are a decode fault. -/
theorem test_noncanonical_words_refused :
    ([0x0000, 0x00E1, 0x00EF, 0x00FE, 0x01E0, 0x0123, 0x0FFF, 0x5121, 0x512F, 0x8128, 0x812D, 0x812F, 0x9121] ++
      [0xE000, 0xE09F, 0xE0A0, 0xF000, 0xF008, 0xF01F, 0xF075, 0xF085, 0xF0FF, 0xFFFF] : List Word).all
        (fun w => !isCanonical w) = true := by decide +kernel

theorem test_decode_refuses : decodeTableWord 16 0x01E0 = none ∧ decodeTableWord 16 0xF075 = none := by decide

theorem test_decode_truncated : decode [0x12] = .truncated ∧ decode [] = .truncated := by decide

/-! Decoding: one word of every constructor, from the patterns of `30_encoding.md` R80 -/

theorem test_decode_flow :
    decodeTableWord 16 0x00E0 = some .cls ∧ decodeTableWord 16 0x00EE = some .ret ∧
    decodeTableWord 16 0x1ABC = some (.jp 0xABC) ∧ decodeTableWord 16 0x2ABC = some (.call 0xABC) ∧
    decodeTableWord 16 0x3A42 = some (.seImm 0xA 0x42) ∧ decodeTableWord 16 0x4B42 = some (.sneImm 0xB 0x42) ∧
    decodeTableWord 16 0x5120 = some (.seReg 0x1 0x2) ∧ decodeTableWord 16 0x9120 = some (.sneReg 0x1 0x2) ∧
    decodeTableWord 16 0xBABC = some (.jpV0 0xABC) := by decide

theorem test_decode_load_alu :
    decodeTableWord 16 0x6A7F = some (.ldImm 0xA 0x7F) ∧ decodeTableWord 16 0x7A01 = some (.addImm 0xA 0x01) ∧
    decodeTableWord 16 0x8120 = some (.mov 0x1 0x2) ∧ decodeTableWord 16 0x8121 = some (.or 0x1 0x2) ∧
    decodeTableWord 16 0x8122 = some (.and 0x1 0x2) ∧ decodeTableWord 16 0x8123 = some (.xor 0x1 0x2) ∧
    decodeTableWord 16 0x8AB4 = some (.add 0xA 0xB) ∧ decodeTableWord 16 0x8125 = some (.sub 0x1 0x2) ∧
    decodeTableWord 16 0x8126 = some (.shr 0x1 0x2) ∧ decodeTableWord 16 0x8127 = some (.subn 0x1 0x2) ∧
    decodeTableWord 16 0x812E = some (.shl 0x1 0x2) ∧ decodeTableWord 16 0xC30F = some (.rnd 0x3 0x0F) := by decide

theorem test_decode_index_memory :
    decodeTableWord 16 0xA123 = some (.ldI 0x123) ∧ decodeTableWord 16 0xF11E = some (.addI 0x1) ∧
    decodeTableWord 16 0xF229 = some (.ldF 0x2) ∧ decodeTableWord 16 0xF333 = some (.bcd 0x3) ∧
    decodeTableWord 16 0xF455 = some (.stRegs 0x4) ∧ decodeTableWord 16 0xF565 = some (.ldRegs 0x5) := by decide

theorem test_decode_display_keys_timers :
    decodeTableWord 16 0xD12A = some (.drw 0x1 0x2 0xA) ∧ decodeTableWord 16 0xE19E = some (.skp 0x1) ∧
    decodeTableWord 16 0xE2A1 = some (.sknp 0x2) ∧ decodeTableWord 16 0xF307 = some (.ldVxDt 0x3) ∧
    decodeTableWord 16 0xF40A = some (.ldVxK 0x4) ∧ decodeTableWord 16 0xF515 = some (.ldDtVx 0x5) ∧
    decodeTableWord 16 0xF618 = some (.ldStVx 0x6) := by decide

/-- `30_encoding.md` R71, the fields of the worked example of `95_test_vectors.md` 2.7. -/
theorem test_fields_of_D12A : fieldOp 0xD12A = 0xD ∧ fieldX 0xD12A = 1 ∧ fieldY 0xD12A = 2 ∧ fieldN 0xD12A = 0xA ∧
    fieldKK 0xD12A = 0x2A ∧ fieldNNN 0xD12A = 0x12A := by decide

/-! One step, expected values from `95_test_vectors.md` parts 1 and 2 -/

/-- The reset state with registers set. -/
def withRegs (l : List (Nibble × Byte)) : State := l.foldl (fun s p => s.setV p.1 p.2) State.reset

/-- The state one step after, the word standing where the step fetches. -/
def after (w : Nat) (s : State) : Option State :=
  match step (s.withFetchWord 16 w) with
  | .next t => some t
  | .fault _ => none
  | .refused _ => none

/-- The fault one step raises, the word standing where the step fetches. -/
def faultAfter (w : Nat) (s : State) : Option (FaultRecord × State) :=
  match step (s.withFetchWord 16 w) with
  | .next _ => none
  | .fault f => some (f.record, f.final)
  | .refused _ => none

/-- `pc` after one step. -/
def pcAfter (w : Nat) (s : State) : Option Word := (after w s).map (·.pc)

/-- A register and VF after one step. -/
def regsAfter (w : Nat) (r : Nibble) (s : State) : Option (Byte × Byte) :=
  (after w s).map fun t => (t.readV r, t.readV 0xF)

/-- Three bytes of memory from an address after one step. -/
def bytesAfter (w a : Nat) (s : State) : Option (List Byte) := (after w s).map fun t => t.mem.readBytes a 3

theorem test_jp : pcAfter 0x1ABC State.reset = some 0xABC ∧ pcAfter 0x1201 State.reset = some 0x201 := by decide

theorem test_call : (after 0x2ABC State.reset).map (fun t => (t.pc, t.sp, t.stackEntry 0)) =
    some (0xABC, 1, some 0x202) := by decide

theorem test_ret : (after 0x00EE (State.reset.setStack [0x206])).map (fun t => (t.pc, t.sp)) = some (0x206, 0) := by
  decide

theorem test_ret_underflow : (faultAfter 0x00EE State.reset).map (fun p => (p.1, p.2.pc, p.2.sp)) =
    some (⟨.stack, 0, 0, 0x00EE, some .underflow, 0x200⟩, 0x202, 0) := by decide

theorem test_se_imm : pcAfter 0x3042 (withRegs [(0, 0x42)]) = some 0x204 ∧
    pcAfter 0x3042 (withRegs [(0, 0x41)]) = some 0x202 := by decide

theorem test_sne_imm : pcAfter 0x4042 (withRegs [(0, 0x41)]) = some 0x204 ∧
    pcAfter 0x4042 (withRegs [(0, 0x42)]) = some 0x202 := by decide

theorem test_se_reg : pcAfter 0x5120 (withRegs [(1, 7), (2, 7)]) = some 0x204 ∧
    pcAfter 0x5120 (withRegs [(1, 7), (2, 8)]) = some 0x202 := by decide

theorem test_sne_reg : pcAfter 0x9120 (withRegs [(1, 7), (2, 8)]) = some 0x204 ∧
    pcAfter 0x9120 (withRegs [(1, 7), (2, 7)]) = some 0x202 := by decide

theorem test_jp_v0 : pcAfter 0xB300 (withRegs [(0, 0x10)]) = some 0x310 ∧
    pcAfter 0xBFFF (withRegs [(0, 0xFF)]) = some 0x10FE := by decide

theorem test_ld_imm : regsAfter 0x6A7F 0xA State.reset = some (0x7F, 0) := by decide

theorem test_add_imm : regsAfter 0x7A01 0xA (withRegs [(0xA, 0xFF), (0xF, 5)]) = some (0, 5) ∧
    regsAfter 0x7F01 0xF (withRegs [(0xF, 0xFF)]) = some (0, 0) := by decide

theorem test_mov : regsAfter 0x8120 1 (withRegs [(2, 0x5A), (0xF, 7)]) = some (0x5A, 7) := by decide

theorem test_or : regsAfter 0x8F21 0xF (withRegs [(0xF, 0xF0), (2, 0x0F)]) = some (0, 0) ∧
    regsAfter 0x81F1 1 (withRegs [(1, 1), (0xF, 0x80)]) = some (0x81, 0) := by decide

theorem test_and : regsAfter 0x8122 1 (withRegs [(1, 0xF0), (2, 0x3C), (0xF, 1)]) = some (0x30, 0) := by decide

theorem test_xor : regsAfter 0x8123 1 (withRegs [(1, 0xFF), (2, 0x0F), (0xF, 1)]) = some (0xF0, 0) := by decide

theorem test_add : regsAfter 0x8124 1 (withRegs [(1, 0xC8), (2, 0x64)]) = some (0x2C, 1) ∧
    regsAfter 0x8124 1 (withRegs [(1, 0x80), (2, 0x7F)]) = some (0xFF, 0) := by decide

theorem test_add_flag_register : regsAfter 0x8F14 0xF (withRegs [(0xF, 0xFF), (1, 1)]) = some (1, 1) ∧
    regsAfter 0x81F4 1 (withRegs [(1, 0x10), (0xF, 5)]) = some (0x15, 0) := by decide

theorem test_sub : regsAfter 0x8125 1 (withRegs [(1, 5), (2, 0x10)]) = some (0xF5, 0) ∧
    regsAfter 0x8125 1 (withRegs [(1, 0x33), (2, 0x33)]) = some (0, 1) := by decide

theorem test_shr : regsAfter 0x8126 1 (withRegs [(1, 0xFF), (2, 3)]) = some (1, 1) ∧
    regsAfter 0x8116 1 (withRegs [(1, 0x81)]) = some (0x40, 1) := by decide

theorem test_subn : regsAfter 0x8127 1 (withRegs [(1, 5), (2, 0x10)]) = some (0x0B, 1) ∧
    regsAfter 0x8127 1 (withRegs [(1, 0x10), (2, 5)]) = some (0xF5, 0) := by decide

theorem test_shl : regsAfter 0x812E 1 (withRegs [(2, 0x81)]) = some (2, 1) ∧
    regsAfter 0x812E 1 (withRegs [(2, 0x40), (0xF, 1)]) = some (0x80, 0) := by decide

/-- Whatever byte is drawn, the mask 0 gives 0 (`95_test_vectors.md` 2.2, `C300`). -/
theorem test_rnd_mask_0 : (exec (.rnd 3 0) State.reset) = .next (State.reset.setV 3 0).takeDraw := by
  simp [exec, execRnd, State.reset]

theorem test_ld_i : (after 0xA123 State.reset).map (·.I) = some 0x123 := by decide

theorem test_add_i : (after 0xF11E ((withRegs [(1, 2)]).setI 0xFFFF)).map (·.I) = some 1 ∧
    (after 0xF11E ((withRegs [(1, 1), (0xF, 9)]).setI 0x0FFF)).map (fun t => (t.I, t.readV 0xF)) = some (0x1000, 9) := by
  decide

theorem test_ld_f : (after 0xF029 (withRegs [(0, 0xA)])).map (·.I) = some 0x82 ∧
    (after 0xF029 (withRegs [(0, 0xFF)])).map (·.I) = some 0x54B := by decide

theorem test_bcd : bytesAfter 0xF033 0x300 ((withRegs [(0, 234)]).setI 0x300) = some [2, 3, 4] ∧
    bytesAfter 0xF033 0xFFD ((withRegs [(0, 7)]).setI 0xFFD) = some [0, 0, 7] := by decide

theorem test_bcd_out_of_bounds :
    (faultAfter 0xF033 ((withRegs [(0, 7)]).setI 0xFFE)).map (fun p => (p.1, p.2.pc, p.2.mem.readBytes 0xFFE 2)) =
      some (⟨.bounds, 0xFFE, 3, 0xF033, none, 0x200⟩, 0x202, [0, 0]) := by decide

theorem test_st_regs :
    (after 0xF255 ((withRegs [(0, 1), (1, 2), (2, 3), (3, 4)]).setI 0x400)).map
      (fun t => (t.mem.readBytes 0x400 4, t.I)) = some ([1, 2, 3, 0], 0x403) := by decide

theorem test_st_regs_out_of_bounds :
    (faultAfter 0xFF55 (State.reset.setI 0xFF1)).map (fun p => (p.1.addr, p.1.len, p.2.I)) = some (0xFF1, 16, 0xFF1) := by
  decide

theorem test_ld_regs :
    (after 0xF265 ((withRegs [(3, 0x99)]).setI 0x50)).map (fun t => (t.readV 0, t.readV 1, t.readV 2, t.readV 3, t.I)) =
      some (0xF0, 0x90, 0x90, 0x99, 0x50) := by decide

theorem test_ld_regs_reads_own_code :
    (after 0xF265 (State.reset.setI 0x200)).map (fun t => (t.readV 0, t.readV 1, t.readV 2)) = some (0xF2, 0x65, 0) := by
  decide

/-- A state with sprite bytes at 0x300, their address in `I` and a start column and row in V0 and V1. -/
def drawing (sprite : List Byte) (vx vy : Byte) : State :=
  ((withRegs [(0, vx), (1, vy)]).setI 0x300).setMem (State.reset.mem.writeBytes 0x300 sprite)

/-- Which of the listed cells are on after one step, with VF and `needs_redraw`. -/
def cellsAfter (w : Nat) (cells : List (Nat × Nat)) (s : State) : Option (List Bool × Byte × Bool) :=
  (after w s).map fun t => (cells.map fun p => t.px.cell p.1 p.2, t.readV 0xF, t.needsRedraw)

theorem test_cls :
    (after 0x00E0 (State.reset.setDisplay (Grid.blank.toggle 31 63) Grid.blank)).map
      (fun t => (t.px.cell 31 63, t.dirty.cell 31 63, t.dirty.cell 0 0, t.needsRedraw)) =
      some (false, true, false, false) := by decide

theorem test_drw_wraps_columns : cellsAfter 0xD011 [(0, 59), (0, 60), (0, 63), (0, 0), (0, 3), (0, 4)]
    (drawing [0xFF] 60 0) = some ([false, true, true, true, true, false], 0, true) := by decide

theorem test_drw_clips_rows : cellsAfter 0xD012 [(31, 0), (31, 7), (31, 8), (0, 0)]
    (drawing [0xFF, 0xFF] 0 31) = some ([true, true, false, false], 0, true) := by decide

theorem test_drw_collision : cellsAfter 0xD011 [(0, 0), (0, 1), (0, 2)]
    ((drawing [0xC0] 0 0).setDisplay ((Grid.blank.toggle 0 1).toggle 0 2) Grid.blank) =
      some ([true, false, true], 1, true) := by decide

theorem test_drw_reads_VF_first : cellsAfter 0xDFF1 [(3, 3)]
    (((drawing [0x80] 0 0).setV 0xF 3).setDisplay (Grid.blank.toggle 3 3) Grid.blank) = some ([false], 1, true) := by
  decide

theorem test_skp : pcAfter 0xE09E ((withRegs [(0, 5)]).setKeys 0x20 none) = some 0x204 ∧
    pcAfter 0xE09E ((withRegs [(0, 0x15)]).setKeys 0x20 none) = some 0x202 := by decide

theorem test_sknp : pcAfter 0xE0A1 ((withRegs [(0, 5)]).setKeys 0x20 none) = some 0x202 ∧
    pcAfter 0xE0A1 ((withRegs [(0, 0x15)]).setKeys 0x20 none) = some 0x204 := by decide

theorem test_ld_vx_dt : (after 0xF007 (State.reset.setDT 0x2A)).map (fun t => (t.readV 0, t.DT)) =
    some (0x2A, 0x2A) := by decide

theorem test_ld_dt_vx : (after 0xF015 (withRegs [(0, 0x3C)])).map (fun t => (t.DT, t.ST)) = some (0x3C, 0) := by decide

theorem test_ld_st_vx : (after 0xF018 (withRegs [(0, 0x3C)])).map (fun t => (t.ST, t.DT, t.soundActive)) =
    some (0x3C, 0, true) := by decide

theorem test_ld_vx_k : (after 0xF30A State.reset).map (fun t => (t.runState, t.pc, t.readV 3)) =
    some (.awaitingKey 3, 0x202, 0) := by decide

/-- Empty memory is a decode fault (`95_test_vectors.md` 2.6). -/
theorem test_reset_program_is_a_decode_fault :
    (match step State.reset with | .fault f => some (f.record, f.final.pc) | .next _ => none | .refused _ => none) =
      some (⟨.decode, 0, 0, 0x0000, none, 0x200⟩, 0x202) := by decide

theorem test_tick : (applyEvent .tick ((State.reset.setDT 255).setST 0)).DT = 254 ∧
    (applyEvent .tick ((State.reset.setDT 255).setST 0)).ST = 0 := by decide

/-- Reset leaves Faulted and puts a written register back (`70_reset_and_hazards.md` R230, `10_state.md` R38). -/
theorem test_reset : (resetOp ((withRegs [(3, 9)]).setRun (.faulted ⟨.decode, 0, 0, 0, none, 0x200⟩))).readV 3 = 0 ∧
    (resetOp ((withRegs [(3, 9)]).setRun (.faulted ⟨.decode, 0, 0, 0, none, 0x200⟩))).runState = .running := by decide

theorem test_key_events : (applyEvent (.keyDown 7) State.reset).pressed = 0x80 ∧
    (applyEvent (.keyDown 7) State.reset).lastKey = some 7 ∧
    (applyEvent (.keyUp 7) (State.reset.setKeys 0x80 (some 7))).pressed = 0 ∧
    (applyEvent (.keyUp 7) (State.reset.setKeys 0x80 (some 7))).lastKey = some 7 := by decide

/-- `95_test_vectors.md` 2.4, presentation: one changed cell, scale 2. -/
theorem test_present :
    let buf := presentBuffer 2 not (State.reset.setDisplay (Grid.blank.toggle 0 0) (Grid.blank.toggle 0 0))
      (fun _ _ => false)
    (buf 0 0, buf 0 1, buf 1 0, buf 1 1, buf 0 2, buf 2 0) = (true, true, true, true, false, false) := by
  decide +kernel

/-! Witnesses: for each statement with hypotheses, a state and operands that meet them all; for a statement with
several clauses, one for each clause, at the edge of its range -/

/-- The reset state with one word placed where the step fetches. -/
def placed (w : Nat) : State := State.reset.withFetchWord 16 w

/-- A word placed, with the index register set. -/
def placedI (w : Nat) (a : Word) : State := (State.reset.setI a).withFetchWord 16 w

/-- A machine that waits for register 3, key 7 down. -/
def waiting : State := (State.reset.setRun (.awaitingKey 3)).setKeys 0x80 (some 7)

/-- A fault record, and the machine Faulted with it. -/
def someRecord : FaultRecord := ⟨.decode, 0, 0, 0x0000, none, 0x200⟩

def stopped : State := State.reset.setRun (.faulted someRecord)

/-- One turn of an event. -/
def eventTurn (e : Event) : State := State.reset.setSchedule [.event e]

/-- A stack of `n` equal entries. -/
def deep (n : Nat) (s : State) : State := s.setStack (List.replicate n 0x202)

theorem reset_not_faulted : ∀ r, State.reset.runState ≠ .faulted r := by intro r; simp [State.reset]

theorem witness_EncodeOfDecodeIsTheWord : decode (0x8A :: 0xB4 :: [0x12]) = .instr (.add 0xA 0xB) [0x12] := by decide

theorem witness_DecodesExactlyTheOpcodeMap : (0x81FE : Word) &&& 0xF00F = 0x800E := by decide

theorem witness_StepRunsDecodedInstruction :
    let s := placed 0x1ABC
    s.runState = .running ∧ s.isEngineTurn = true ∧ s.pc.toNat + 2 ≤ 4096 ∧
      decode [s.mem.readByte s.pc.toNat, s.mem.readByte (s.pc.toNat + 1)] = .instr (.jp 0xABC) [] := by decide

/-- The last address a fetch may have, 0xFFE. -/
theorem witness_StepRunsDecodedInstruction_edge :
    let s := (State.reset.setPc 0xFFE).withFetchWord 16 0x1ABC
    s.runState = .running ∧ s.isEngineTurn = true ∧ s.pc = 0xFFE ∧ s.pc.toNat + 2 ≤ 4096 ∧
      decode [s.mem.readByte s.pc.toNat, s.mem.readByte (s.pc.toNat + 1)] = .instr (.jp 0xABC) [] := by decide

theorem witness_FetchOutOfBoundsFaults :
    let s := State.reset.setPc 0xFFF
    s.runState = .running ∧ s.isEngineTurn = true ∧ 4096 < s.pc.toNat + 2 := by decide

theorem witness_IllegalWordFaults :
    let s := placed 0x5121
    s.runState = .running ∧ s.isEngineTurn = true ∧ s.pc.toNat + 2 ≤ 4096 ∧
      decode [s.mem.readByte s.pc.toNat, s.mem.readByte (s.pc.toNat + 1)] = .illegal 0x5121 := by decide

/-- With `pc` advanced, and with `pc` left at a fetch fault. -/
theorem witness_FaultsLeaveAllElseUnchanged :
    (∀ r, (placed 0x00EE).runState ≠ .faulted r) ∧ (∃ f, step (placed 0x00EE) = .fault f) ∧
      (∃ f, step (State.reset.setPc 0xFFF) = .fault f) :=
  ⟨reset_not_faulted, ⟨_, rfl⟩, ⟨_, rfl⟩⟩

/-- A state for each cause, at the edge. -/
theorem witness_OnlyTheseCausesFault :
    (∃ f, step (State.reset.setPc 0xFFF) = .fault f) ∧ (∃ f, step (placed 0x0000) = .fault f) ∧
    (∃ f, step (placed 0x00EE) = .fault f) ∧ (∃ f, step ((deep 16 State.reset).withFetchWord 16 0x2200) = .fault f) ∧
    (∃ f, step (placedI 0xD010 0x1001) = .fault f) ∧ (∃ f, step (placedI 0xF033 0xFFE) = .fault f) ∧
    (∃ f, step (placedI 0xFF55 0xFF1) = .fault f) ∧ (∃ f, step (placedI 0xF165 0xFFF) = .fault f) :=
  ⟨⟨_, rfl⟩, ⟨_, rfl⟩, ⟨_, rfl⟩, ⟨_, rfl⟩, ⟨_, rfl⟩, ⟨_, rfl⟩, ⟨_, rfl⟩, ⟨_, rfl⟩⟩

theorem witness_FaultedIsTerminal : stopped.runState = .faulted someRecord := by decide

/-- The wait resolves; the last key is not held; there is no last key. -/
theorem witness_KeyWaitStepResolvesOrWaits :
    (waiting.runState = .awaitingKey 3 ∧ waiting.isEngineTurn = true ∧ waiting.lastKey = some 7 ∧
      waiting.keyHeld 7 = true) ∧
    ((waiting.setKeys 0x04 (some 9)).runState = .awaitingKey 3 ∧ (waiting.setKeys 0x04 (some 9)).isEngineTurn = true ∧
      ∀ k : Nibble, (waiting.setKeys 0x04 (some 9)).lastKey = some k →
        (waiting.setKeys 0x04 (some 9)).keyHeld k.toNat = false) ∧
    (∀ k : Nibble, (waiting.setKeys 0x04 none).lastKey = some k → (waiting.setKeys 0x04 none).keyHeld k.toNat = false) := by
  decide +kernel

/-- Any event; the flag set before ClearRedraw, a changed cell before Present. -/
theorem witness_EventTurnLeavesTheEngineAlone :
    (∀ r, (eventTurn .tick).runState ≠ .faulted r) ∧ (eventTurn .tick).schedule = .event .tick :: [] ∧
    (∃ t, step ((eventTurn .clearRedraw).setRedraw true) = .next t ∧ t.needsRedraw = false) ∧
    (∃ t, step ((eventTurn .present).setDisplay Grid.blank (Grid.blank.toggle 31 63)) = .next t ∧
      t.dirty.cell 31 63 = false) :=
  ⟨reset_not_faulted, rfl, ⟨_, rfl, rfl⟩, ⟨_, rfl, by decide⟩⟩

/-- A stack of 15 entries takes one more, one of 16 does not. -/
theorem witness_CallPushesReturnAddress :
    (deep 15 State.reset).stack.length < 16 ∧ 16 ≤ (deep 16 State.reset).stack.length := by decide

theorem witness_ReturnPopsIntoPc : (deep 1 State.reset).stack = 0x202 :: [] ∧ State.reset.stack = [] := by decide

theorem witness_ReturnUndoesCall : (deep 15 State.reset).stack.length < 16 := by decide

/-- A call to an even address, and JP V0 with an even sum. -/
theorem witness_EvenPcIsKept :
    (∃ t, step ((deep 1 State.reset).withFetchWord 16 0x2300) = .next t) ∧
    (deep 1 State.reset).pc.toNat % 2 = 0 ∧ (∀ a ∈ (deep 1 State.reset).stack, a.toNat % 2 = 0) ∧
    ((deep 1 State.reset).withFetchWord 16 0x2300).nextInstr = some (.call 0x300) ∧ (0x300 : Addr12).toNat % 2 = 0 ∧
    (∃ t, step (placed 0xB300) = .next t) ∧ (placed 0xB300).nextInstr = some (.jpV0 0x300) ∧
    ((0x300 : Addr12).toNat + ((placed 0xB300).readV 0).toNat) % 2 = 0 :=
  ⟨⟨_, rfl⟩, by decide, by simp [deep], by decide, by decide, ⟨_, rfl⟩, by decide, by decide⟩

/-- A plain register and VF, as the destination clauses take them. -/
theorem witness_AddSetsSumAndCarry : (1 : Nibble) ≠ 0xF ∧ (2 : Nibble) ≠ 1 ∧ (2 : Nibble) ≠ 0xF := by decide

theorem witness_SubtractionsSetDifferenceAndNotBorrow :
    (1 : Nibble) ≠ 0xF ∧ (2 : Nibble) ≠ 1 ∧ (2 : Nibble) ≠ 0xF := by decide

theorem witness_ShiftsMoveVyByOne : (1 : Nibble) ≠ 0xF ∧ (2 : Nibble) ≠ 1 ∧ (2 : Nibble) ≠ 0xF := by decide

theorem witness_RandomByteIsMasked : (0x0F : Byte).getLsbD 4 = false := by decide

/-- A destination, and VF as a flag. -/
theorem witness_OnlyDestinationsAndFlagChange :
    (∃ t, exec (.ldImm 1 5) State.reset = .next t ∧ t.readV 1 ≠ State.reset.readV 1) ∧
    (∃ t, exec (.add 1 2) (withRegs [(1, 0xFF), (2, 1)]) = .next t ∧
      t.readV 0xF ≠ (withRegs [(1, 0xFF), (2, 1)]).readV 0xF) :=
  ⟨⟨_, rfl, by decide⟩, ⟨_, rfl, by decide⟩⟩

theorem witness_BcdStoresThreeDigits : (State.reset.setI 0xFFD).address + 3 ≤ 4096 := by decide

theorem witness_BlockStoreWritesAndAdvances :
    (State.reset.setI 0xFF0).address + ((0xF : Nibble).toNat + 1) ≤ 4096 := by decide

theorem witness_BlockLoadReadsRegisters :
    (State.reset.setI 0xFF0).address + ((0xF : Nibble).toNat + 1) ≤ 4096 ∧
    4096 < (State.reset.setI 0xFF1).address + ((0xF : Nibble).toNat + 1) := by decide

/-- One state for each instruction, one byte past the last legal access. -/
theorem witness_OutOfBoundsAccessFaults :
    4096 < (State.reset.setI 0x1001).I.toNat + (0 : Nibble).toNat ∧ 4096 < (State.reset.setI 0xFFE).I.toNat + 3 ∧
    4096 < (State.reset.setI 0xFF1).I.toNat + ((0xF : Nibble).toNat + 1) := by decide

/-- The state in between has other registers and `I` set back. -/
theorem witness_StoreThenLoadRestoresRegisters :
    ((withRegs [(0, 0x11)]).setI 0x300).address + ((1 : Nibble).toNat + 1) ≤ 4096 ∧
    ∃ t, exec (.stRegs 1) ((withRegs [(0, 0x11)]).setI 0x300) = .next t ∧
      ∃ u : State, u.mem = t.mem ∧ u.I = 0x300 ∧ u.readV 0 = 0x55 :=
  ⟨by decide, _, rfl, ((State.reset.setI 0x300).setV 0 0x55).setMem _, rfl, rfl, by decide⟩

theorem witness_MemoryChangesOnlyByStores :
    (∃ t, step ((withRegs [(0, 7)]).setI 0xFFD |>.withFetchWord 16 0xF033) = .next t ∧
      t.mem.readByte 0xFFF ≠ ((withRegs [(0, 7)]).setI 0xFFD |>.withFetchWord 16 0xF033).mem.readByte 0xFFF) ∧
    (∃ t, step ((withRegs [(1, 7)]).setI 0x300 |>.withFetchWord 16 0xF155) = .next t ∧
      t.mem.readByte 0x301 ≠ ((withRegs [(1, 7)]).setI 0x300 |>.withFetchWord 16 0xF155).mem.readByte 0x301) :=
  ⟨⟨_, rfl, by decide⟩, ⟨_, rfl, by decide⟩⟩

/-- In bounds with no row at the last address, a cell the sprite covers, and a cell it does not. -/
theorem witness_DrawCompositesSprite :
    (State.reset.setI 0x1000).address + (0 : Nibble).toNat ≤ 4096 ∧ (drawing [0xFF] 60 31).address + 1 ≤ 4096 ∧
    SpriteCovers (drawing [0xFF] 60 31) 0 1 1 31 3 ∧ ¬ SpriteCovers (drawing [0xFF] 60 31) 0 1 1 31 4 ∧
    ((drawing [0xFF] 60 31).setDisplay (Grid.blank.toggle 31 3) Grid.blank).px.cell 31 3 = true :=
  ⟨by decide, by decide, ⟨by decide, by decide, by decide, by decide, 7, by decide, by decide, by decide⟩,
    by
      rintro ⟨-, -, -, -, j, hj, hc, -⟩
      have : ((drawing [0xFF] 60 31).readV 0).toNat = 60 := by decide
      omega,
    by decide⟩

/-- Registers other than VF, in bounds, a covered cell that is off and one that is on. -/
theorem witness_DrawingTwiceRestoresTheDisplay :
    (0 : Nibble) ≠ 0xF ∧ (1 : Nibble) ≠ 0xF ∧ (drawing [0x80] 3 5).address + (1 : Nibble).toNat ≤ 4096 ∧
    SpriteCovers (drawing [0x80] 3 5) 0 1 1 5 3 ∧ (drawing [0x80] 3 5).px.cell 5 3 = false ∧
    ((drawing [0x80] 3 5).setDisplay (Grid.blank.toggle 5 3) Grid.blank).px.cell 5 3 = true :=
  ⟨by decide, by decide, by decide, ⟨by decide, by decide, by decide, by decide, 0, by decide, by decide, by decide⟩,
    by decide, by decide⟩

/-- A step that is no presentation, a presentation, and a step that changes a pixel. -/
theorem witness_DirtyTracksChangedPixels :
    (∃ t, step (placed 0x6A7F) = .next t) ∧ (placed 0x6A7F).schedule.head? ≠ some (.event .present) ∧
    (∃ t, step (eventTurn .present) = .next t) ∧ (eventTurn .present).schedule.head? = some (.event .present) ∧
    (∃ t, step ((State.reset.setDisplay (Grid.blank.toggle 0 0) Grid.blank).withFetchWord 16 0x00E0) = .next t ∧
      t.px ≠ (State.reset.setDisplay (Grid.blank.toggle 0 0) Grid.blank).px) :=
  ⟨⟨_, rfl⟩, by decide, ⟨_, rfl⟩, by decide, ⟨_, rfl, by decide⟩⟩

/-- A draw that sets the flag, and the host's clear. -/
theorem witness_RedrawFlagSetOnlyByDraw :
    (∃ t, step (placed 0xD010) = .next t ∧ t.needsRedraw = true) ∧ (placed 0xD010).needsRedraw = false ∧
    (placed 0xD010).nextInstr = some (.drw 0 1 0) ∧
    (∃ t, step ((eventTurn .clearRedraw).setRedraw true) = .next t ∧ t.needsRedraw = false) :=
  ⟨⟨_, rfl, rfl⟩, by decide, by decide, ⟨_, rfl, rfl⟩⟩

/-- The last block of the grid at scale 2, and the first places outside. -/
theorem witness_PresentInvertsChangedBlocks :
    1 ≤ 2 ∧ (∀ r, State.reset.runState ≠ .faulted r) ∧ 31 < 32 ∧ 63 < 64 ∧ 1 < 2 ∧ 32 * 2 ≤ 64 ∧ 64 * 2 ≤ 128 :=
  ⟨by decide, reset_not_faulted, by decide, by decide, by decide, by decide, by decide⟩

/-- Key 15 held, key 15 not held, and the first value that names no key. -/
theorem witness_KeySkipsAreComplementary :
    (((withRegs [(0, 15)]).readV 0).toNat = (0xF : Nibble).toNat ∧
      ((withRegs [(0, 15)]).setKeys 0x8000 none).pressed.getLsbD (0xF : Nibble).toNat = true) ∧
    (withRegs [(0, 15)]).pressed.getLsbD (0xF : Nibble).toNat = false ∧ 15 < ((withRegs [(0, 16)]).readV 0).toNat := by
  decide

theorem witness_WaitForKeyEntersAwaitingKey :
    waiting.runState = .awaitingKey 3 ∧ ∃ v, step waiting = .next v := ⟨by decide, _, rfl⟩

theorem witness_TicksSaturateAtZero :
    (∀ r, (State.reset.setDT 5).runState ≠ .faulted r) ∧
    ((State.reset.setDT 5).setSchedule (List.replicate 10 (.event .tick))).schedule =
      List.replicate 10 (.event .tick) ++ [] := ⟨reset_not_faulted, by decide⟩

/-- A timer that changes by each writer, and pairs of states that differ in the timers or in `ST` alone. -/
theorem witness_TimersAreSilent :
    (∃ t, step ((withRegs [(0, 9)]).withFetchWord 16 0xF015) = .next t ∧ 0 < t.DT.toNat) ∧
    (∃ t, step ((withRegs [(0, 9)]).withFetchWord 16 0xF018) = .next t ∧ 0 < t.ST.toNat) ∧
    (∃ t, step ((eventTurn .tick).setDT 1) = .next t ∧ t.DT = 0) ∧
    SameButTimers (placed 0x6A7F) (((placed 0x6A7F).setDT 3).setST 4) ∧
    (∀ x, (placed 0x6A7F).nextInstr ≠ some (.ldVxDt x)) ∧
    (placed 0xF007).setST 4 = (fun t : State => { placed 0xF007 with ST := t.ST }) ((placed 0xF007).setST 4) :=
  ⟨⟨_, rfl, by decide⟩, ⟨_, rfl, by decide⟩, ⟨_, rfl, by decide⟩, rfl, by
    intro x
    rw [show (placed 0x6A7F).nextInstr = some (.ldImm 0xA 0x7F) by decide]
    simp, rfl⟩

theorem witness_KeyEventsUpdateKeyboard : ∀ r, State.reset.runState ≠ .faulted r := reset_not_faulted

/-- The wait is entered, and it resolves. -/
theorem witness_RunStateAndKeyboardWriters :
    (∃ t, step (placed 0xF30A) = .next t ∧ t.runState ≠ (placed 0xF30A).runState) ∧
    (∃ t, step waiting = .next t ∧ t.runState ≠ waiting.runState) :=
  ⟨⟨_, rfl, by decide⟩, ⟨_, rfl, by decide⟩⟩

/-- One instruction for each piece of state. -/
theorem witness_InstructionsTouchOnlyTheirState :
    (∃ t, exec (.jp 0x300) State.reset = .next t ∧ t.pc ≠ State.reset.pc) ∧
    (∃ t, exec (.ldI 0x300) State.reset = .next t ∧ t.I ≠ State.reset.I) ∧
    (∃ t, exec (.call 0x300) State.reset = .next t ∧ t.stack ≠ State.reset.stack) ∧
    (∃ t, exec (.ldDtVx 0) (withRegs [(0, 1)]) = .next t ∧ t.DT ≠ State.reset.DT) ∧
    (∃ t, exec (.ldStVx 0) (withRegs [(0, 1)]) = .next t ∧ t.ST ≠ State.reset.ST) ∧
    (∃ t, exec .cls (State.reset.setDisplay (Grid.blank.toggle 0 0) Grid.blank) = .next t ∧ t.dirty ≠ Grid.blank) ∧
    (∃ t, exec (.drw 0 0 0) State.reset = .next t ∧ t.needsRedraw ≠ State.reset.needsRedraw) ∧
    (∃ t, exec (.ldVxK 3) State.reset = .next t ∧ t.runState ≠ State.reset.runState) ∧
    (∃ t, exec (.rnd 0 1) State.reset = .next t ∧ t.draws ≠ State.reset.draws) ∧
    (∃ t, exec (.bcd 0) (withRegs [(0, 9)]) = .next t ∧ t.mem.readByte 2 ≠ State.reset.mem.readByte 2) :=
  ⟨⟨_, rfl, by decide⟩, ⟨_, rfl, by decide⟩, ⟨_, rfl, by decide⟩, ⟨_, rfl, by decide⟩, ⟨_, rfl, by decide⟩,
    ⟨_, rfl, by decide⟩, ⟨_, rfl, by decide⟩, ⟨_, rfl, by decide⟩, ⟨_, rfl, by decide⟩, ⟨_, rfl, by decide⟩⟩

theorem witness_HostOutputsAreNotSeen :
    SameButOutputs (placed 0xD010) (((placed 0xD010).setST 4).setRedraw true) := rfl

theorem witness_EveryStepKeepsTheInvariant : State.reset.Inv ∧ ∃ t, step (eventTurn .tick) = .next t :=
  ⟨⟨⟨.nil, fun _ h => nomatch h⟩, by decide, (fun _ h => nomatch h), by decide⟩, _, rfl⟩

/-- A loaded program of one instruction and one turn of the engine. -/
theorem witness_EveryRunOfEveryProgramIsInRange :
    ∃ s t, boot [0x1A, 0xBC] = .next s ∧ Reaches { s with schedule := [.engine] } t ∧ t.pc = 0xABC :=
  ⟨_, _, rfl, .tail (.refl _) rfl, rfl⟩

/-- The last font byte, and the addresses just outside the font. -/
theorem witness_ResetValues : 15 < 16 ∧ 4 < 5 ∧ 0x050 + 15 * 5 + 4 = 0x09F ∧ (0x04F < 0x050 ∨ 0x09F < 0x04F) ∧
    (0x0A0 < 0x050 ∨ 0x09F < 0x0A0) := by decide

/-- The longest image that fits, one byte more, and a byte of the shortest. -/
theorem witness_LoadProgramWritesImage :
    (∀ r, State.reset.runState ≠ .faulted r) ∧ (List.replicate 3584 (0 : Byte)).length ≤ 3584 ∧
    3584 < (List.replicate 3585 (0 : Byte)).length ∧ 3583 < (List.replicate 3584 (0 : Byte)).length := by
  refine ⟨reset_not_faulted, ?_, ?_, ?_⟩ <;> simp only [List.length_replicate] <;> decide

end Sys2Proof.Tests
end

section
/-! PROOF. Control transfer (`40_flow.md`): JP nnn. -/

namespace Sys2Proof

/-- The word of JP nnn as a number (`30_encoding.md` R72, format NNN). -/
theorem encodeWord_jp (nnn : Addr12) : encodeWord (.jp nnn) = BitVec.ofNat 16 (0x1000 + nnn.toNat) := by
  apply BitVec.eq_of_toNat_eq
  have hlt : nnn.toNat < 2 ^ 12 := nnn.isLt
  calc (encodeWord (.jp nnn)).toNat
      _ = 1 <<< 12 ||| nnn.toNat := BitVec.toNat_append _ _
      _ = 1 <<< 12 + nnn.toNat := (Nat.shiftLeft_add_eq_or_of_lt hlt 1).symm
      _ = (BitVec.ofNat 16 (0x1000 + nnn.toNat)).toNat := by rw [BitVec.toNat_ofNat]; omega

/-- The opcode nibble 1 alone selects the row of JP (`30_encoding.md` R80). -/
theorem decodeWord_of_fieldOp_one {w : Word} (h : fieldOp w = 1) : decodeWord w = some (.jp (fieldNNN w)) := by
  simp [decodeWord, opTable, flowRows, selects_eq, h, fieldOp_ofNat, fieldX_ofNat, fieldY_ofNat, fieldN_ofNat]

/-- The decoder gives JP nnn back from its word. -/
theorem decodeWord_encodeWord_jp (nnn : Addr12) : decodeWord (encodeWord (.jp nnn)) = some (.jp nnn) := by
  rw [encodeWord, decodeWord_of_fieldOp_one (fieldOp_packNNN _ _), fieldNNN_packNNN]

end Sys2Proof

namespace Sys2Proof.Machine

/-- JP's meaning: `pc` is set to the zero-extended target. -/
theorem exec_jp (nnn : Addr12) (s : State) : exec (.jp nnn) s = .next (s.setPc (zext16 nnn)) := rfl

/-- Zero extension keeps the value (`00_scope.md` R7). -/
theorem zext16_toNat {w : Nat} (hw : w ≤ 16) (v : BitVec w) : (zext16 v).toNat = v.toNat :=
  BitVec.toNat_setWidth_of_le hw

/-- An update of `pc` changes nothing else. -/
theorem onlyPc_setPc (s : State) (a : Word) : OnlyPc s (s.setPc a) := ⟨rfl, fun _ => rfl⟩

/-- Of the 12-bit addresses only the last has no room for the two bytes of a fetch (`20_memory.md` R51). -/
theorem memRead_addr12_eq_none_iff (m : Memory) (nnn : Addr12) :
    memRead m nnn.toNat 2 = none ↔ nnn = 0xFFF := by
  rw [memRead_eq_none, ← BitVec.toNat_inj]
  have hlt : nnn.toNat < 4096 := nnn.isLt
  have hlast : (0xFFF : Addr12).toNat = 4095 := rfl
  omega

/-- Settles O14: the decoder inverts JP's word, its meaning is one update of `pc`, and a target is out of range for
the next fetch when `nnn + 2` passes the end of memory. -/
theorem jumpSetsPc : Obligations.JumpSetsPc := by
  unfold Obligations.JumpSetsPc
  intro nnn s
  have hpc : (s.setPc (zext16 nnn)).pc.toNat = nnn.toNat := zext16_toNat (by decide) nnn
  refine ⟨?_, s.setPc (zext16 nnn), exec_jp nnn s, hpc, onlyPc_setPc s _, ?_⟩
  · rw [← encodeWord_jp, decodeWord_encodeWord_jp]
  · rw [hpc]
    exact memRead_addr12_eq_none_iff _ nnn

end Sys2Proof.Machine
end

section
/-! PROOF. Index register and memory (`42_index_memory.md`): LD Vx, [I]. -/

namespace Sys2Proof

/-- A word in format XKK or XFF as a number (`30_encoding.md` R72). -/
theorem packXKK_eq_ofNat (op x : Nibble) (kk : Byte) :
    packXKK op x kk = BitVec.ofNat 16 ((op.toNat * 16 + x.toNat) * 256 + kk.toNat) := by
  apply BitVec.eq_of_toNat_eq
  have hop : op.toNat < 2 ^ 4 := op.isLt
  have hx : x.toNat < 2 ^ 4 := x.isLt
  have hkk : kk.toNat < 2 ^ 8 := kk.isLt
  calc (packXKK op x kk).toNat
      _ = (op ++ x).toNat <<< 8 ||| kk.toNat := BitVec.toNat_append _ _
      _ = (op.toNat <<< 4 ||| x.toNat) <<< 8 ||| kk.toNat := by rw [BitVec.toNat_append]
      _ = (op.toNat * 16 + x.toNat) * 256 + kk.toNat := by
        rw [← Nat.shiftLeft_add_eq_or_of_lt hx, ← Nat.shiftLeft_add_eq_or_of_lt hkk, Nat.shiftLeft_eq, Nat.shiftLeft_eq]
      _ = (BitVec.ofNat 16 ((op.toNat * 16 + x.toNat) * 256 + kk.toNat)).toNat := by
        rw [BitVec.toNat_ofNat, Nat.mod_eq_of_lt (by omega)]

/-- The word of LD Vx, [I] as a number (`42_index_memory.md` R146). -/
theorem encodeWord_ldRegs (x : Nibble) : encodeWord (.ldRegs x) = BitVec.ofNat 16 (0xF065 + x.toNat * 256) := by
  have hop : (0xF : Nibble).toNat = 15 := rfl
  have hkk : (0x65 : Byte).toNat = 101 := rfl
  rw [encodeWord, packXKK_eq_ofNat, hop, hkk]
  congr 1
  omega

/-- The opcode nibble F with low byte 65 selects the row of LD Vx, [I] and no earlier one (`30_encoding.md` R80). -/
theorem decodeWord_of_fields_F65 {w : Word} (hop : fieldOp w = 0xF) (hy : fieldY w = 6) (hn : fieldN w = 5) :
    decodeWord w = some (.ldRegs (fieldX w)) := by
  simp [decodeWord, opTable, flowRows, aluRows, middleRows, keyTimerRows, selects_eq, hop, hy, hn,
    fieldOp_ofNat, fieldX_ofNat, fieldY_ofNat, fieldN_ofNat]

/-- The decoder gives LD Vx, [I] back from its word. -/
theorem decodeWord_encodeWord_ldRegs (x : Nibble) : decodeWord (encodeWord (.ldRegs x)) = some (.ldRegs x) := by
  rw [encodeWord, decodeWord_of_fields_F65 (fieldOp_packXKK _ _ _) (fieldY_packXKK _ _ _) (fieldN_packXKK _ _ _),
    fieldX_packXKK]

end Sys2Proof

namespace Sys2Proof.Machine

/-- LD Vx, [I] in bounds: the block at `I` goes to the registers from `V0` upward. -/
theorem exec_ldRegs_of_inBounds {x : Nibble} {s : State} (h : s.address + blockLen x ≤ 4096) :
    exec (.ldRegs x) s = .next (setRegsFrom s 0 (s.mem.readBytes s.address (blockLen x))) := by
  have hread := (memRead_eq_some s.mem s.address (blockLen x) _).mpr ⟨h, rfl⟩
  simp only [exec, execLdRegs, hread]

/-- LD Vx, [I] out of bounds: the bounds fault of the whole block. -/
theorem exec_ldRegs_of_outOfBounds {x : Nibble} {s : State} (h : 4096 < s.address + blockLen x) :
    exec (.ldRegs x) s = raiseBounds (.ldRegs x) s.address (blockLen x) s := by
  have hread := (memRead_eq_none s.mem s.address (blockLen x)).mpr h
  simp only [exec, execLdRegs, hread]

/-- A bounds fault inside a handler names the access and leaves every register as it was
(`60_exceptions.md` R203, R205). -/
theorem raiseBounds_eq_fault (i : Instr) (addr len : Nat) (s : State) :
    ∃ r u, raiseBounds i addr len s = .fault (.bounds r u) ∧ r.addr = addr ∧ r.len = len ∧ u.V = s.V :=
  ⟨_, _, rfl, rfl, rfl, rfl⟩

/-- Writing a block of registers changes the register file only, and so no byte of memory. -/
theorem onlyV_setRegsFrom (s : State) (k : Nat) (vs : List Byte) : OnlyV s (setRegsFrom s k vs) := by
  have hframe := setRegsFrom_frame vs s k
  have hmem : (setRegsFrom s k vs).mem = s.mem := by rw [hframe]
  exact ⟨hframe, fun a => by rw [hmem]⟩

/-- What the registers hold after `V0` to `Vx` took the bytes from address `a` upward. -/
theorem readV_setRegsFrom_readBytes (s : State) (m : Memory) (a : Nat) (x r : Nibble) :
    (setRegsFrom s 0 (m.readBytes a (blockLen x))).readV r =
      if r.toNat ≤ x.toNat then m.readByte (a + r.toNat) else s.readV r := by
  have hx : x.toNat < 16 := x.isLt
  have hlen : (m.readBytes a (blockLen x)).length = x.toNat + 1 := Memory.readBytes_length m _ a
  rw [readV_setRegsFrom _ _ _ _ (by omega), hlen]
  by_cases hr : r.toNat ≤ x.toNat
  · have hj : r.toNat < blockLen x := Nat.lt_succ_of_le hr
    rw [if_pos (by omega), if_pos hr, Nat.sub_zero, Memory.readBytes_getD m _ a _ hj]
  · rw [if_neg (by omega), if_neg hr]

/-- Settles O31: the decoder inverts the word of LD Vx, [I], and the bounds of its whole block decide between one
write of the register block and the fault. -/
theorem blockLoadReadsRegisters : Obligations.BlockLoadReadsRegisters := by
  unfold Obligations.BlockLoadReadsRegisters
  intro x s
  refine ⟨?_, fun hin => ?_, fun hout => ?_⟩
  · rw [← encodeWord_ldRegs, decodeWord_encodeWord_ldRegs]
  · exact ⟨_, exec_ldRegs_of_inBounds hin, readV_setRegsFrom_readBytes s s.mem s.address x, onlyV_setRegsFrom s 0 _⟩
  · rw [exec_ldRegs_of_outOfBounds hout]
    exact raiseBounds_eq_fault (.ldRegs x) s.address (blockLen x) s

end Sys2Proof.Machine
end

section
/-! PROOF. Display (`43_display.md`): what a step does to `needs_redraw`. -/

namespace Sys2Proof.Machine

@[simp] theorem needsRedraw_skipIf (c : Bool) (s : State) : (skipIf c s).needsRedraw = s.needsRedraw := by
  cases c <;> rfl

@[simp] theorem needsRedraw_setRegsFrom (s : State) (k : Nat) (vs : List Byte) :
    (setRegsFrom s k vs).needsRedraw = s.needsRedraw := by
  rw [setRegsFrom_frame]

@[simp] theorem needsRedraw_resolveKey (x : Nibble) (s : State) : (resolveKey x s).needsRedraw = s.needsRedraw := by
  unfold resolveKey
  cases s.lastKey with
  | none => rfl
  | some k => cases h : s.keyHeld k.toNat <;> simp [h]

/-- Of the events only ClearRedraw changes the flag (`43_display.md` R167, R168). -/
theorem needsRedraw_applyEvent (e : Event) {s : State} (hs : s.isFaulted = false) :
    (applyEvent e s).needsRedraw = if e = .clearRedraw then false else s.needsRedraw := by
  unfold applyEvent
  rw [hs]
  cases e <;> rfl

theorem needsRedraw_of_execRet {s t : State} (h : execRet s = .next t) : t.needsRedraw = s.needsRedraw := by
  unfold execRet at h
  split at h
  next a u hpop =>
    obtain ⟨rest, -, rfl⟩ := (pop_eq_some a s u).mp hpop
    cases h
    rfl
  next => cases h

theorem needsRedraw_of_execCall {nnn : Addr12} {s t : State} (h : execCall nnn s = .next t) :
    t.needsRedraw = s.needsRedraw := by
  unfold execCall at h
  split at h
  next u hpush =>
    obtain ⟨-, rfl⟩ := (push_eq_some s.pc s u).mp hpush
    cases h
    rfl
  next => cases h

theorem needsRedraw_of_execBcd {x : Nibble} {s t : State} (h : execBcd x s = .next t) :
    t.needsRedraw = s.needsRedraw := by
  unfold execBcd at h
  split at h <;> cases h
  rfl

theorem needsRedraw_of_execStRegs {x : Nibble} {s t : State} (h : execStRegs x s = .next t) :
    t.needsRedraw = s.needsRedraw := by
  unfold execStRegs at h
  split at h <;> cases h
  rfl

theorem needsRedraw_of_execLdRegs {x : Nibble} {s t : State} (h : execLdRegs x s = .next t) :
    t.needsRedraw = s.needsRedraw := by
  unfold execLdRegs at h
  split at h <;> cases h
  exact needsRedraw_setRegsFrom s 0 _

/-- A DRW that does not fault sets the flag, whether or not any pixel changed. -/
theorem needsRedraw_of_execDrw {x y n : Nibble} {s t : State} (h : execDrw x y n s = .next t) :
    t.needsRedraw = true := by
  unfold execDrw at h
  split at h <;> cases h
  rfl

/-- No instruction but DRW changes the flag. -/
theorem needsRedraw_of_exec_of_ne_drw {i : Instr} {s t : State} (hi : ∀ x y n, i ≠ .drw x y n)
    (h : exec i s = .next t) : t.needsRedraw = s.needsRedraw := by
  cases i with
  | drw x y n => exact absurd rfl (hi x y n)
  | ret => exact needsRedraw_of_execRet h
  | call nnn => exact needsRedraw_of_execCall h
  | bcd x => exact needsRedraw_of_execBcd h
  | stRegs x => exact needsRedraw_of_execStRegs h
  | ldRegs x => exact needsRedraw_of_execLdRegs h
  | seImm | sneImm | seReg | sneReg | skp | sknp => cases h; exact needsRedraw_skipIf _ s
  | _ => cases h; rfl

/-- No instruction is executed while a key is awaited (`40_flow.md` R101). -/
theorem nextInstr_of_awaitingKey {s : State} {x : Nibble} (h : s.runState = .awaitingKey x) :
    s.nextInstr = none := by
  simp [State.nextInstr, State.fetches, h]

/-- No instruction is executed on an event's turn (`20_memory.md` R61). -/
theorem nextInstr_of_event {s : State} {e : Event} {rest : List Turn} (h : s.schedule = .event e :: rest) :
    s.nextInstr = none := by
  simp [State.nextInstr, State.fetches, State.isEngineTurn, h]

/-- Everything a step does to the flag: the host's ClearRedraw clears it, DRW sets it, any other step keeps it
(`43_display.md` R166, R167). -/
theorem step_needsRedraw_cases {s t : State} (h : step s = .next t) :
    (s.schedule.head? = some (.event .clearRedraw) ∧ s.nextInstr = none ∧ t.needsRedraw = false) ∨
    (∃ x y n, s.nextInstr = some (.drw x y n) ∧ t.needsRedraw = true) ∨
    ((∀ x y n, s.nextInstr ≠ some (.drw x y n)) ∧ t.needsRedraw = s.needsRedraw) := by
  obtain ⟨e, rest, hsched, hs, rfl⟩ | ⟨x, hrun, -, rfl⟩ | ⟨i, hi, hexec⟩ := step_next_cases h
  · have hnone := nextInstr_of_event hsched
    have hflag : (applyEvent e (s.setSchedule rest)).needsRedraw = if e = .clearRedraw then false else s.needsRedraw :=
      needsRedraw_applyEvent e hs
    by_cases he : e = .clearRedraw
    · exact .inl ⟨by rw [hsched, he]; rfl, hnone, by rw [hflag, if_pos he]⟩
    · exact .inr (.inr ⟨by simp [hnone], by rw [hflag, if_neg he]⟩)
  · exact .inr (.inr ⟨by simp [nextInstr_of_awaitingKey hrun], by simp⟩)
  · by_cases hdrw : ∃ x y n, i = .drw x y n
    · obtain ⟨x, y, n, rfl⟩ := hdrw
      exact .inr (.inl ⟨x, y, n, hi, needsRedraw_of_execDrw hexec⟩)
    · have hne : ∀ x y n, i ≠ .drw x y n := fun x y n he => hdrw ⟨x, y, n, he⟩
      have hkeep : t.needsRedraw = s.turnTaken.advancePc.needsRedraw := needsRedraw_of_exec_of_ne_drw hne hexec
      exact .inr (.inr ⟨by simpa [hi] using hne, hkeep⟩)

/-- Settles O39: each clause is read off the three things a step can do to the flag. -/
theorem redrawFlagSetOnlyByDraw : Obligations.RedrawFlagSetOnlyByDraw := by
  unfold Obligations.RedrawFlagSetOnlyByDraw
  intro s t h
  obtain ⟨hclear, hnone, ht⟩ | ⟨x, y, n, hdrw, ht⟩ | ⟨hne, ht⟩ := step_needsRedraw_cases h
  · exact ⟨by simp [hnone], by simp [ht], fun _ _ => hclear⟩
  · exact ⟨fun _ _ _ _ => ht, fun _ _ => ⟨x, y, n, hdrw⟩, by simp [ht]⟩
  · exact ⟨fun x y n hi => absurd hi (hne x y n), fun hoff hon => absurd (ht.symm.trans hon) (by simp [hoff]),
      fun hon hoff => absurd (ht.symm.trans hoff) (by simp [hon])⟩

end Sys2Proof.Machine
end

section
/-! PROOF. Timers (`44_keys_timers.md`): who writes them, and what a program sees of them. -/

namespace Sys2Proof.Machine

/-! Who writes a timer -/

/-- Both timers hold in `t` what they hold in `s`. -/
def SameTimers (s t : State) : Prop := t.DT = s.DT ∧ t.ST = s.ST

theorem sameTimers_skipIf (c : Bool) (s : State) : SameTimers s (skipIf c s) := by
  cases c <;> exact ⟨rfl, rfl⟩

theorem sameTimers_setRegsFrom (s : State) (k : Nat) (vs : List Byte) : SameTimers s (setRegsFrom s k vs) := by
  rw [setRegsFrom_frame]
  exact ⟨rfl, rfl⟩

/-- What a key wait's turn can do: nothing, or the write of the key and the end of the wait (R183). -/
theorem resolveKey_cases (x : Nibble) (s : State) :
    resolveKey x s = s ∨ ∃ k, resolveKey x s = (s.setV x (zext8 k)).setRun .running := by
  unfold resolveKey
  split
  next k _ =>
    cases s.keyHeld k.toNat with
    | false => exact .inl rfl
    | true => exact .inr ⟨k, rfl⟩
  next => exact .inl rfl

theorem sameTimers_resolveKey (x : Nibble) (s : State) : SameTimers s (resolveKey x s) := by
  obtain h | ⟨k, h⟩ := resolveKey_cases x s
  · rw [h]; exact ⟨rfl, rfl⟩
  · rw [h]; exact ⟨rfl, rfl⟩

/-- No instruction but LD DT, Vx and LD ST, Vx changes a timer (`44_keys_timers.md` R185, R189). -/
theorem sameTimers_of_exec {i : Instr} {s t : State} (hdt : ∀ x, i ≠ .ldDtVx x) (hst : ∀ x, i ≠ .ldStVx x)
    (h : exec i s = .next t) : SameTimers s t := by
  cases i with
  | ldDtVx x => exact absurd rfl (hdt x)
  | ldStVx x => exact absurd rfl (hst x)
  | ret =>
    simp only [exec, execRet] at h
    split at h <;> cases h
    next a u hpop =>
      obtain ⟨rest, -, rfl⟩ := (pop_eq_some a s u).mp hpop
      exact ⟨rfl, rfl⟩
  | call nnn =>
    simp only [exec, execCall] at h
    split at h <;> cases h
    next u hpush =>
      obtain ⟨-, rfl⟩ := (push_eq_some s.pc s u).mp hpush
      exact ⟨rfl, rfl⟩
  | drw | bcd | stRegs =>
    simp only [exec, execDrw, execBcd, execStRegs] at h
    split at h <;> cases h
    exact ⟨rfl, rfl⟩
  | ldRegs x =>
    simp only [exec, execLdRegs] at h
    split at h <;> cases h
    exact sameTimers_setRegsFrom s 0 _
  | seImm | sneImm | seReg | sneReg | skp | sknp => cases h; exact sameTimers_skipIf _ s
  | _ => cases h; exact ⟨rfl, rfl⟩

/-- A tick never raises a timer (`44_keys_timers.md` R188). -/
theorem tickTimer_le (v : Byte) : (tickTimer v).toNat ≤ v.toNat := by
  unfold tickTimer
  split
  · bv_omega
  · exact le_rfl

/-- Of the events only Tick changes a timer. -/
theorem timers_applyEvent (e : Event) {s : State} (hs : s.isFaulted = false) :
    (e = .tick ∧ (applyEvent e s).DT = tickTimer s.DT ∧ (applyEvent e s).ST = tickTimer s.ST) ∨
    SameTimers s (applyEvent e s) := by
  unfold applyEvent
  rw [hs]
  cases e with
  | tick => exact .inl ⟨rfl, rfl, rfl⟩
  | keyDown | keyUp | clearRedraw | present => exact .inr ⟨rfl, rfl⟩

/-- Everything a step does to the timers: a tick lowers both, LD DT, Vx and LD ST, Vx set one of them, any other step
keeps both. -/
theorem step_timers_cases {s t : State} (h : step s = .next t) :
    (s.schedule.head? = some (.event .tick) ∧ t.DT = tickTimer s.DT ∧ t.ST = tickTimer s.ST) ∨
    ((∃ x, s.nextInstr = some (.ldDtVx x)) ∧ t.ST = s.ST) ∨
    ((∃ x, s.nextInstr = some (.ldStVx x)) ∧ t.DT = s.DT) ∨
    SameTimers s t := by
  obtain ⟨e, rest, hsched, hs, rfl⟩ | ⟨x, -, -, rfl⟩ | ⟨i, hi, hexec⟩ := step_next_cases h
  · obtain ⟨rfl, hdt, hst⟩ | hsame := timers_applyEvent e (s := s.setSchedule rest) hs
    · exact .inl ⟨by rw [hsched]; rfl, hdt, hst⟩
    · exact .inr (.inr (.inr hsame))
  · exact .inr (.inr (.inr (sameTimers_resolveKey x s.turnTaken)))
  · by_cases hdt : ∃ x, i = .ldDtVx x
    · obtain ⟨x, rfl⟩ := hdt
      cases hexec
      exact .inr (.inl ⟨⟨x, hi⟩, rfl⟩)
    by_cases hst : ∃ x, i = .ldStVx x
    · obtain ⟨x, rfl⟩ := hst
      cases hexec
      exact .inr (.inr (.inl ⟨⟨x, hi⟩, rfl⟩))
    have hsame : SameTimers s.turnTaken.advancePc t :=
      sameTimers_of_exec (fun x hx => hdt ⟨x, hx⟩) (fun x hx => hst ⟨x, hx⟩) hexec
    exact .inr (.inr (.inr hsame))

/-- Who writes the timers, and that each rises only by its instruction (`44_keys_timers.md` R192). -/
theorem timer_writers {s t : State} (h : step s = .next t) :
    (t.DT ≠ s.DT → (∃ x, s.nextInstr = some (.ldDtVx x)) ∨ s.schedule.head? = some (.event .tick)) ∧
    (t.ST ≠ s.ST → (∃ x, s.nextInstr = some (.ldStVx x)) ∨ s.schedule.head? = some (.event .tick)) ∧
    (s.DT.toNat < t.DT.toNat → ∃ x, s.nextInstr = some (.ldDtVx x)) ∧
    (s.ST.toNat < t.ST.toNat → ∃ x, s.nextInstr = some (.ldStVx x)) := by
  obtain ⟨htick, hdt, hst⟩ | ⟨hset, hst⟩ | ⟨hset, hdt⟩ | ⟨hdt, hst⟩ := step_timers_cases h
  · rw [hdt, hst]
    exact ⟨fun _ => .inr htick, fun _ => .inr htick, fun hlt => absurd hlt (tickTimer_le _).not_gt,
      fun hlt => absurd hlt (tickTimer_le _).not_gt⟩
  · exact ⟨fun _ => .inl hset, fun hne => absurd hst hne, fun _ => hset, by simp [hst]⟩
  · exact ⟨fun hne => absurd hdt hne, fun _ => .inl hset, by simp [hdt], fun _ => hset⟩
  · exact ⟨fun hne => absurd hdt hne, fun hne => absurd hst hne, by simp [hdt], by simp [hst]⟩

/-! What a program sees of the timers -/

/-- `t` is `s` with other timers, and under `p` with the same `DT`: for `p` false the two differ in the timers alone,
for `p` true in `ST` alone. -/
def OtherTimers (p : Prop) (s t : State) : Prop := ∃ d e, (p → d = s.DT) ∧ t = (s.setDT d).setST e

theorem sameButTimers_iff_otherTimers (s t : State) : SameButTimers s t ↔ OtherTimers False s t := by
  constructor
  · exact fun h => ⟨t.DT, t.ST, False.elim, h⟩
  · rintro ⟨d, e, -, rfl⟩
    rfl

theorem eq_with_ST_iff_otherTimers (s t : State) : t = { s with ST := t.ST } ↔ OtherTimers True s t := by
  constructor
  · exact fun h => ⟨s.DT, t.ST, fun _ => rfl, h⟩
  · rintro ⟨d, e, hd, rfl⟩
    rw [hd trivial]
    rfl

/-- Outcomes that tell states related by `R` tell states related by every weaker relation. -/
theorem SameOutcome.mono {R S : State → State → Prop} (hRS : ∀ u v, R u v → S u v)
    {o o' : Host.Outcome State Fault Refusal} (h : SameOutcome R o o') : SameOutcome S o o' := by
  cases o with
  | next u =>
    cases o' with
    | next v => exact hRS u v h
    | fault | refused => exact h
  | fault f =>
    cases o' with
    | fault g => exact ⟨h.1, hRS _ _ h.2⟩
    | next | refused => exact h
  | refused => cases o' <;> exact h

section

variable {p : Prop} {s t : State}

theorem OtherTimers.runState_eq (h : OtherTimers p s t) : t.runState = s.runState := by
  obtain ⟨d, e, -, rfl⟩ := h
  rfl

theorem OtherTimers.schedule_eq (h : OtherTimers p s t) : t.schedule = s.schedule := by
  obtain ⟨d, e, -, rfl⟩ := h
  rfl

/-- One record, told with both states. -/
theorem sameOutcome_fault (r : FaultRecord) (h : OtherTimers p s t) :
    SameOutcome (OtherTimers p) (.fault (faultOf r s)) (.fault (faultOf r t)) := by
  simpa [SameOutcome] using h

/-- One record raised in both states. -/
theorem sameOutcome_raise (r : FaultRecord) (h : OtherTimers p s t) :
    SameOutcome (OtherTimers p) (raise r s) (raise r t) := by
  obtain ⟨d, e, hd, rfl⟩ := h
  exact sameOutcome_fault r ⟨d, e, hd, rfl⟩

theorem otherTimers_skipIf (c : Bool) (h : OtherTimers p s t) : OtherTimers p (skipIf c s) (skipIf c t) := by
  obtain ⟨d, e, hd, rfl⟩ := h
  cases c <;> exact ⟨d, e, hd, rfl⟩

theorem otherTimers_setRegsFrom (vs : List Byte) (h : OtherTimers p s t) (k : Nat) :
    OtherTimers p (setRegsFrom s k vs) (setRegsFrom t k vs) := by
  induction vs generalizing s t k with
  | nil => exact h
  | cons v vs ih =>
    obtain ⟨d, e, hd, rfl⟩ := h
    exact ih (s := s.setV (BitVec.ofNat 4 k) v) ⟨d, e, hd, rfl⟩ (k + 1)

theorem regsFrom_setST_setDT (s : State) (d e : Byte) (k n : Nat) :
    regsFrom ((s.setDT d).setST e) k n = regsFrom s k n := by
  induction n generalizing k with
  | zero => rfl
  | succ n ih => rw [regsFrom, ih]; rfl

theorem regBlock_setST_setDT (s : State) (d e : Byte) (x : Nibble) :
    regBlock ((s.setDT d).setST e) x = regBlock s x := regsFrom_setST_setDT s d e 0 (blockLen x)

@[simp] theorem address_setDT (s : State) (d : Byte) : (s.setDT d).address = s.address := rfl
@[simp] theorem address_setST (s : State) (e : Byte) : (s.setST e).address = s.address := rfl

theorem otherTimers_setSchedule (ts : List Turn) (h : OtherTimers p s t) :
    OtherTimers p (s.setSchedule ts) (t.setSchedule ts) := by
  obtain ⟨d, e, hd, rfl⟩ := h
  exact ⟨d, e, hd, rfl⟩

theorem otherTimers_resolveKey (x : Nibble) (h : OtherTimers p s t) :
    OtherTimers p (resolveKey x s) (resolveKey x t) := by
  obtain ⟨d, e, hd, rfl⟩ := h
  unfold resolveKey
  simp only [State.setST_lastKey, State.setDT_lastKey]
  cases s.lastKey with
  | none => exact ⟨d, e, hd, rfl⟩
  | some k =>
    show OtherTimers p (if s.keyHeld k.toNat then _ else _) (if s.keyHeld k.toNat then _ else _)
    cases s.keyHeld k.toNat <;> exact ⟨d, e, hd, rfl⟩

theorem otherTimers_applyEvent (ev : Event) (h : OtherTimers p s t) :
    OtherTimers p (applyEvent ev s) (applyEvent ev t) := by
  obtain ⟨d, e, hd, rfl⟩ := h
  unfold applyEvent
  show OtherTimers p (if s.isFaulted then _ else _) (if s.isFaulted then _ else _)
  cases s.isFaulted with
  | true => exact ⟨d, e, hd, rfl⟩
  | false =>
    cases ev with
    | tick => exact ⟨tickTimer d, tickTimer e, fun hp => by rw [hd hp]; rfl, rfl⟩
    | keyDown | keyUp | clearRedraw | present => exact ⟨d, e, hd, rfl⟩

/-- An instruction tells the same of two states with other timers: only LD Vx, DT reads one of them
(`44_keys_timers.md` R184), and where it does `DT` has to be the same. -/
theorem sameOutcome_exec {i : Instr} (hi : ∀ x, i = .ldVxDt x → p) (h : OtherTimers p s t) :
    SameOutcome (OtherTimers p) (exec i s) (exec i t) := by
  have hraise := fun r => sameOutcome_raise r h
  obtain ⟨d, e, hd, rfl⟩ := h
  cases i with
  | ldVxDt x =>
    rw [hd (hi x rfl)]
    exact ⟨s.DT, e, fun _ => rfl, rfl⟩
  | ldDtVx x => exact ⟨s.readV x, e, fun _ => rfl, rfl⟩
  | ldStVx x => exact ⟨d, s.readV x, hd, rfl⟩
  | ret =>
    simp only [exec, execRet, pop, State.setST_stack, State.setDT_stack]
    cases s.stack with
    | nil => exact hraise _
    | cons a rest => exact ⟨d, e, hd, rfl⟩
  | call nnn =>
    simp only [exec, execCall]
    by_cases hlt : s.stack.length < 16
    · rw [(push_eq_some _ s _).mpr ⟨hlt, rfl⟩, (push_eq_some _ ((s.setDT d).setST e) _).mpr ⟨hlt, rfl⟩]
      exact ⟨d, e, hd, rfl⟩
    · rw [(push_eq_none _ s).mpr (not_lt.mp hlt), (push_eq_none _ ((s.setDT d).setST e)).mpr (not_lt.mp hlt)]
      exact hraise _
  | drw x y n =>
    simp only [exec, execDrw, State.setST_mem, State.setDT_mem, address_setST, address_setDT]
    cases memRead s.mem s.address n.toNat with
    | some sprite => exact ⟨d, e, hd, rfl⟩
    | none => exact hraise _
  | bcd x =>
    simp only [exec, execBcd, State.setST_mem, State.setDT_mem, address_setST, address_setDT, State.readV_setST,
      State.readV_setDT]
    cases memWrite s.mem s.address (bcdDigits (s.readV x)) with
    | some m => exact ⟨d, e, hd, rfl⟩
    | none => exact hraise _
  | stRegs x =>
    simp only [exec, execStRegs, State.setST_mem, State.setDT_mem, address_setST, address_setDT, regBlock_setST_setDT]
    cases memWrite s.mem s.address (regBlock s x) with
    | some m => exact ⟨d, e, hd, rfl⟩
    | none => exact hraise _
  | ldRegs x =>
    simp only [exec, execLdRegs, State.setST_mem, State.setDT_mem, address_setST, address_setDT]
    cases memRead s.mem s.address (blockLen x) with
    | some bs => exact otherTimers_setRegsFrom bs ⟨d, e, hd, rfl⟩ 0
    | none => exact hraise _
  | seImm | sneImm | seReg | sneReg | skp | sknp => exact otherTimers_skipIf _ ⟨d, e, hd, rfl⟩
  | _ => exact ⟨d, e, hd, rfl⟩

/-- One step in Running tells the same, fetch and decode faults included. -/
theorem sameOutcome_fetchExecute
    (hp : s.pc.toNat + 2 ≤ 4096 → ∀ x, decodeWord s.fetchedWord = some (.ldVxDt x) → p) (h : OtherTimers p s t) :
    SameOutcome (OtherTimers p) (fetchExecute s) (fetchExecute t) := by
  have hraise := fun r => sameOutcome_raise r h
  obtain ⟨d, e, hd, rfl⟩ := h
  have hword : ((s.setDT d).setST e).fetchedWord = s.fetchedWord := rfl
  have hnext : OtherTimers p s.advancePc ((s.setDT d).setST e).advancePc := ⟨d, e, hd, rfl⟩
  rw [fetchExecute_eq, fetchExecute_eq, hword, State.setST_pc, State.setDT_pc]
  by_cases hb : s.pc.toNat + 2 ≤ 4096
  · rw [if_pos hb, if_pos hb]
    cases hi : decodeWord s.fetchedWord with
    | some i => exact sameOutcome_exec (fun x hx => hp hb x (hx ▸ hi)) hnext
    | none => exact sameOutcome_raise _ hnext
  · rw [if_neg hb, if_neg hb]
    exact hraise _

/-- On the engine's turn in Running, with `pc` in bounds, the word at `pc` says which instruction is executed. -/
theorem nextInstr_of_running {s : State} (hr : s.runState = .running) (ht : s.isEngineTurn = true)
    (hb : s.pc.toNat + 2 ≤ 4096) : s.nextInstr = decodeWord s.fetchedWord := by
  simp [State.nextInstr, State.fetches, hr, ht, hb]

theorem sameOutcome_engineStep (hp : ∀ x, s.nextInstr = some (.ldVxDt x) → p) (ht : s.isEngineTurn = true)
    (h : OtherTimers p s t) : SameOutcome (OtherTimers p) (engineStep s.turnTaken) (engineStep t.turnTaken) := by
  have hturn : OtherTimers p s.turnTaken t.turnTaken := by
    rw [State.turnTaken, State.turnTaken, h.schedule_eq]
    exact otherTimers_setSchedule _ h
  simp only [engineStep, State.turnTaken_runState, h.runState_eq]
  cases hr : s.runState with
  | running =>
    exact sameOutcome_fetchExecute (fun hb x hx => hp x ((nextInstr_of_running hr ht hb).trans hx)) hturn
  | awaitingKey x => exact otherTimers_resolveKey x hturn
  | faulted r => exact sameOutcome_fault r hturn

theorem isEngineTurn_or_event (s : State) : s.isEngineTurn = true ∨ ∃ ev rest, s.schedule = .event ev :: rest := by
  unfold State.isEngineTurn
  split
  next => exact .inl rfl
  next => exact .inl rfl
  next ev rest hs => exact .inr ⟨ev, rest, hs⟩

/-- Every step of two machines with other timers tells the same, unless it executes LD Vx, DT on other values of
`DT` (`44_keys_timers.md` R192). -/
theorem sameOutcome_step (hp : ∀ x, s.nextInstr = some (.ldVxDt x) → p) (h : OtherTimers p s t) :
    SameOutcome (OtherTimers p) (step s) (step t) := by
  by_cases hfault : ∃ r, s.runState = .faulted r
  · obtain ⟨r, hr⟩ := hfault
    rw [step_faulted hr, step_faulted (h.runState_eq.trans hr)]
    exact sameOutcome_fault r h
  have hfs : ∀ r, s.runState ≠ .faulted r := fun r hr => hfault ⟨r, hr⟩
  have hft : ∀ r, t.runState ≠ .faulted r := h.runState_eq ▸ hfs
  obtain ht | ⟨ev, rest, hev⟩ := isEngineTurn_or_event s
  · have ht' : t.isEngineTurn = true := by rwa [State.isEngineTurn, h.schedule_eq]
    rw [step_engine hfs ht, step_engine hft ht']
    exact sameOutcome_engineStep hp ht h
  · rw [step_event hfs hev, step_event hft (h.schedule_eq.trans hev)]
    exact otherTimers_applyEvent ev (otherTimers_setSchedule rest h)

end

/-- Settles O45: the writers are read off what a step can do to the timers; both relations are `OtherTimers`, which
every step keeps. -/
theorem timersAreSilent : Obligations.TimersAreSilent := by
  unfold Obligations.TimersAreSilent
  refine ⟨fun s t h => timer_writers h, fun s t h hno => ?_, fun s t h => ?_⟩
  · exact (sameOutcome_step hno ((sameButTimers_iff_otherTimers s t).mp h)).mono
      fun u v => (sameButTimers_iff_otherTimers u v).mpr
  · exact (sameOutcome_step (fun _ _ => trivial) ((eq_with_ST_iff_otherTimers s t).mp h)).mono
      fun u v => (eq_with_ST_iff_otherTimers u v).mpr

end Sys2Proof.Machine
end

section
/-! PROOF. Keys (`44_keys_timers.md`): LD Vx, K and the key wait. -/

namespace Sys2Proof

/-- The word of LD Vx, K as a number (`44_keys_timers.md` R182). -/
theorem encodeWord_ldVxK (x : Nibble) : encodeWord (.ldVxK x) = BitVec.ofNat 16 (0xF00A + x.toNat * 256) := by
  have hop : (0xF : Nibble).toNat = 15 := rfl
  have hkk : (0x0A : Byte).toNat = 10 := rfl
  rw [encodeWord, packXKK_eq_ofNat, hop, hkk]
  congr 1
  omega

/-- The decoder gives LD Vx, K back from its word. -/
theorem decodeWord_encodeWord_ldVxK (x : Nibble) : decodeWord (encodeWord (.ldVxK x)) = some (.ldVxK x) := by
  simp [encodeWord, decodeWord, opTable, flowRows, aluRows, middleRows, keyTimerRows, selects_eq,
    fieldOp_ofNat, fieldX_ofNat, fieldY_ofNat, fieldN_ofNat]

end Sys2Proof

namespace Sys2Proof.Machine

/-- LD Vx, K's meaning: the wait is entered, whatever keys are held. -/
theorem exec_ldVxK (x : Nibble) (s : State) : exec (.ldVxK x) s = .next { s with runState := .awaitingKey x } := rfl

@[simp] theorem pc_resolveKey (x : Nibble) (s : State) : (resolveKey x s).pc = s.pc := by
  obtain h | ⟨k, h⟩ := resolveKey_cases x s
  · rw [h]
  · rw [h]; rfl

/-- No event moves `pc` (`20_memory.md` R61). -/
@[simp] theorem pc_applyEvent (e : Event) (s : State) : (applyEvent e s).pc = s.pc := by
  unfold applyEvent
  cases s.isFaulted <;> cases e <;> rfl

/-- No step of the key wait moves `pc`: it is an event or the engine's resolution step. -/
theorem step_pc_of_awaitingKey {s t : State} {x : Nibble} (hr : s.runState = .awaitingKey x)
    (h : step s = .next t) : t.pc = s.pc := by
  obtain ⟨e, rest, -, -, rfl⟩ | ⟨y, -, -, rfl⟩ | ⟨i, hi, -⟩ := step_next_cases h
  · exact pc_applyEvent e _
  · exact pc_resolveKey y _
  · rw [nextInstr_of_awaitingKey hr] at hi
    cases hi

/-- Settles O42: the decoder inverts the word of LD Vx, K, its meaning is one update of the run state, and no step
of the wait moves `pc`. -/
theorem waitForKeyEntersAwaitingKey : Obligations.WaitForKeyEntersAwaitingKey := by
  unfold Obligations.WaitForKeyEntersAwaitingKey
  intro x s
  refine ⟨?_, exec_ldVxK x s, fun u v => step_pc_of_awaitingKey⟩
  rw [← encodeWord_ldVxK, decodeWord_encodeWord_ldVxK]

end Sys2Proof.Machine
end

section
/-! PROOF. Encoding (`30_encoding.md`): the rows of the opcode map are disjoint, the decoder and the encoder are
inverse to each other. -/

namespace Sys2Proof

/-- A bit that both rows fix is fixed differently by them. -/
def OpRow.Apart (r q : OpRow) : Prop := r.pattern &&& q.mask ≠ q.pattern &&& r.mask

/-- No word selects two rows that are apart. -/
theorem OpRow.Apart.not_selects {r q : OpRow} (h : r.Apart q) {w : Word} (hr : r.selects w = true) :
    ¬ q.selects w = true := by
  intro hq
  rw [OpRow.selects, beq_iff_eq] at hr hq
  apply h
  rw [← hr, ← hq, BitVec.and_assoc, BitVec.and_assoc, BitVec.and_comm r.mask]

/-- The rows of the opcode map are pairwise apart (`30_encoding.md` R80: no word selects two rows). -/
theorem opTable_apart : opTable.Pairwise OpRow.Apart := by
  unfold OpRow.Apart
  decide

/-- A word selects one place of the opcode map at most. -/
theorem index_eq_of_selects {j k : Nat} {r q : OpRow} {w : Word} (hj : opTable[j]? = some r)
    (hk : opTable[k]? = some q) (hr : r.selects w = true) (hq : q.selects w = true) : j = k := by
  have hapart : ∀ {j k : Nat} {r q : OpRow}, opTable[j]? = some r → opTable[k]? = some q → j < k →
      r.Apart q := by
    intro j k r q hj hk hlt
    obtain ⟨hjlen, rfl⟩ := List.getElem?_eq_some_iff.mp hj
    obtain ⟨hklen, rfl⟩ := List.getElem?_eq_some_iff.mp hk
    exact List.pairwise_iff_getElem.mp opTable_apart j k hjlen hklen hlt
  obtain hlt | heq | hgt := Nat.lt_trichotomy j k
  · exact absurd hq ((hapart hj hk hlt).not_selects hr)
  · exact heq
  · exact absurd hr ((hapart hk hj hgt).not_selects hq)

/-- A row that a word selects is the only one. -/
theorem eq_of_selects {r q : OpRow} {w : Word} (hr : r ∈ opTable) (hq : q ∈ opTable) (hrw : r.selects w = true)
    (hqw : q.selects w = true) : r = q := by
  obtain ⟨j, hj⟩ := List.mem_iff_getElem?.mp hr
  obtain ⟨k, hk⟩ := List.mem_iff_getElem?.mp hq
  rw [index_eq_of_selects hj hk hrw hqw, hk] at hj
  exact (Option.some.inj hj).symm

/-- The decoder builds its instruction from the row the word selects (`30_encoding.md` R81). -/
theorem decodeWord_eq_some_iff (w : Word) (i : Instr) :
    decodeWord w = some i ↔ ∃ r ∈ opTable, r.selects w = true ∧ r.build w = i := by
  have hfound : ∀ {r : OpRow}, opTable.find? (·.selects w) = some r → r ∈ opTable ∧ r.selects w = true :=
    fun h => ⟨List.mem_of_find?_eq_some h, List.find?_some (p := fun r : OpRow => r.selects w) h⟩
  constructor
  · intro h
    obtain ⟨r, hfind, hbuild⟩ := Option.map_eq_some_iff.mp h
    obtain ⟨hr, hw⟩ := hfound hfind
    exact ⟨r, hr, hw, hbuild⟩
  · rintro ⟨r, hr, hw, rfl⟩
    obtain ⟨q, hfind⟩ := Option.isSome_iff_exists.mp
      ((List.find?_isSome (p := fun r : OpRow => r.selects w)).mpr ⟨r, hr, hw⟩)
    obtain ⟨hq, hqw⟩ := hfound hfind
    rw [decodeWord, hfind, eq_of_selects hr hq hw hqw, Option.map_some]

/-- A word is a decode fault exactly when it selects no row (`30_encoding.md` R81, R82). -/
theorem decodeWord_eq_none_iff (w : Word) : decodeWord w = none ↔ ∀ r ∈ opTable, ¬ r.selects w = true := by
  rw [decodeWord, Option.map_eq_none_iff, List.find?_eq_none]

/-- The rows stand in the order of the instructions: an instruction's word selects its own row, which builds the
instruction back (`30_encoding.md` R71, R72, R80). -/
theorem own_row (i : Instr) : ∃ r, opTable[i.ctorIdx]? = some r ∧ r.selects (encodeWord i) = true ∧
    r.build (encodeWord i) = i := by
  cases i <;> refine ⟨_, rfl, ?_, ?_⟩ <;>
    simp [encodeWord, selects_eq, fieldOp_ofNat, fieldX_ofNat, fieldY_ofNat, fieldN_ofNat]

theorem decodeWord_encodeWord (i : Instr) : decodeWord (encodeWord i) = some i := by
  obtain ⟨r, hrow, hsel, hbuild⟩ := own_row i
  exact (decodeWord_eq_some_iff _ _).mpr ⟨r, List.mem_of_getElem? hrow, hsel, hbuild⟩

/-- A nibble of the low byte is a nibble of the word. -/
@[simp] theorem extractLsb'_fieldKK (w : Word) (lo : Nat) (h : lo + 4 ≤ 8) :
    (fieldKK w).extractLsb' lo 4 = w.extractLsb' lo 4 := by
  apply BitVec.eq_of_getLsbD_eq
  intro i hi
  simp [fieldKK, show lo + i < 8 by omega]

/-- A nibble of the address field is a nibble of the word. -/
@[simp] theorem extractLsb'_fieldNNN (w : Word) (lo : Nat) (h : lo + 4 ≤ 12) :
    (fieldNNN w).extractLsb' lo 4 = w.extractLsb' lo 4 := by
  apply BitVec.eq_of_getLsbD_eq
  intro i hi
  simp [fieldNNN, show lo + i < 12 by omega]

/-- The nibbles of a word under their names in R71. -/
theorem extractLsb'_nibbles (w : Word) :
    w.extractLsb' 8 4 = fieldX w ∧ w.extractLsb' 4 4 = fieldY w ∧ w.extractLsb' 0 4 = fieldN w := ⟨rfl, rfl, rfl⟩

/-- What a row builds from a word that selects it has that word (`30_encoding.md` R72, R80): the pattern fixes every
nibble that is not an operand. -/
theorem encodeWord_build {r : OpRow} (hr : r ∈ opTable) {w : Word} (hw : r.selects w = true) :
    encodeWord (r.build w) = w := by
  have hrows : ∀ r ∈ opTable, r.selects w = true → encodeWord (r.build w) = w := by
    simp +contextual [opTable, flowRows, aluRows, middleRows, keyTimerRows, selects_eq, encodeWord, word_eq_iff,
      extractLsb'_nibbles, fieldOp_ofNat, fieldX_ofNat, fieldY_ofNat, fieldN_ofNat]
  exact hrows r hr hw

/-- A word that decodes is the word of its instruction. -/
theorem encodeWord_of_decodeWord {w : Word} {i : Instr} (h : decodeWord w = some i) : encodeWord i = w := by
  obtain ⟨r, hr, hsel, rfl⟩ := (decodeWord_eq_some_iff w i).mp h
  exact encodeWord_build hr hsel

/-- What the first two bytes of a list decode to is what their word decodes to. -/
theorem decode_cons_cons (b0 b1 : Byte) (rest : List Byte) : decode (b0 :: b1 :: rest) =
    (decodeWord (wordOfBytes b0 b1)).elim (.illegal (wordOfBytes b0 b1)) (.instr · rest) := by
  rw [decode]
  cases decodeWord (wordOfBytes b0 b1) <;> rfl

/-- Settles O2: the bytes of an instruction make its word again, and that word selects the instruction's own row. -/
theorem decodeOfEncodeIsTheInstruction : Obligations.DecodeOfEncodeIsTheInstruction := by
  unfold Obligations.DecodeOfEncodeIsTheInstruction
  intro i rest
  show decode ((encodeWord i).extractLsb' 8 8 :: (encodeWord i).extractLsb' 0 8 :: rest) = _
  rw [decode_cons_cons, wordOfBytes_bytes, decodeWord_encodeWord, Option.elim_some]

/-- Settles O3: the row that the word selects fixes every bit of it that is not an operand. -/
theorem encodeOfDecodeIsTheWord : Obligations.EncodeOfDecodeIsTheWord := by
  unfold Obligations.EncodeOfDecodeIsTheWord
  intro b0 b1 rest rest' i h
  rw [decode_cons_cons] at h
  cases hi : decodeWord (wordOfBytes b0 b1) with
  | none => simp [hi] at h
  | some j =>
    simp only [hi, Option.elim_some, Decoded.instr.injEq] at h
    obtain ⟨rfl, rfl⟩ := h
    rw [encode, encodeWord_of_decodeWord hi, bytesOfWord, wordOfBytes_high, wordOfBytes_low]
    exact ⟨rfl, rfl⟩

/-- The (mask, match) pair of a row, as `30_encoding.md` R80 writes it. -/
def OpRow.pair (r : OpRow) : Word × Word := (r.mask, r.pattern)

theorem selects_iff_pair (r : OpRow) (w : Word) : r.selects w = true ↔ w &&& r.pair.1 = r.pair.2 := beq_iff_eq

/-- Settles O4: the pairs are those of `opTable`, whose rows are pairwise apart. -/
theorem decodesExactlyTheOpcodeMap : Obligations.DecodesExactlyTheOpcodeMap := by
  unfold Obligations.DecodesExactlyTheOpcodeMap
  intro pairs
  have hpairs : pairs = opTable.map OpRow.pair := rfl
  rw [hpairs]
  refine ⟨fun w => ?_, fun w j k p q hj hk hp hq => ?_⟩
  · rw [decodeWord_eq_none_iff, List.forall_mem_map]
    simp only [selects_iff_pair, ne_eq]
  · rw [List.getElem?_map, Option.map_eq_some_iff] at hj hk
    obtain ⟨r, hr, rfl⟩ := hj
    obtain ⟨r', hr', rfl⟩ := hk
    exact index_eq_of_selects hr hr' ((selects_iff_pair r w).mpr hp) ((selects_iff_pair r' w).mpr hq)

/-- Settles O1: each word is decoded by evaluation. -/
theorem wordsOfEachFamilyDecode : Obligations.WordsOfEachFamilyDecode := by
  unfold Obligations.WordsOfEachFamilyDecode
  decide

end Sys2Proof
end

section
/-! PROOF. The instructions: the equations of those that can fault, and the frame of each. -/

namespace Sys2Proof.Machine

/-! The instructions that can fault, case by case -/

theorem exec_ret_of_cons {s : State} {a : Word} {rest : List Word} (h : s.stack = a :: rest) :
    exec .ret s = .next ((s.setStack rest).setPc a) := by
  simp only [exec, execRet, (pop_eq_some a s _).mpr ⟨rest, h, rfl⟩]

theorem exec_ret_of_nil {s : State} (h : s.stack = []) : exec .ret s = raiseStack .ret .underflow s := by
  simp only [exec, execRet, (pop_eq_none s).mpr h]

theorem exec_call_of_lt {s : State} (nnn : Addr12) (h : s.stack.length < 16) :
    exec (.call nnn) s = .next ((s.setStack (s.pc :: s.stack)).setPc (zext16 nnn)) := by
  simp only [exec, execCall, (push_eq_some s.pc s _).mpr ⟨h, rfl⟩]

theorem exec_call_of_full {s : State} (nnn : Addr12) (h : 16 ≤ s.stack.length) :
    exec (.call nnn) s = raiseStack (.call nnn) .overflow s := by
  simp only [exec, execCall, (push_eq_none s.pc s).mpr h]

/-- The display after DRW Vx, Vy, n, and its collision (`43_display.md` R161). -/
def drawn (s : State) (x y n : Nibble) : Canvas := drawOn s x y (s.mem.readBytes s.address n.toNat)

/-- The state after DRW Vx, Vy, n in bounds (`43_display.md` R161). -/
def afterDraw (s : State) (x y n : Nibble) : State :=
  ((s.setDisplay (drawn s x y n).px (drawn s x y n).dirty).setV vf (flagByte (drawn s x y n).coll)).setRedraw true

theorem exec_drw_of_inBounds {s : State} (x y : Nibble) {n : Nibble} (h : s.address + n.toNat ≤ 4096) :
    exec (.drw x y n) s = .next (afterDraw s x y n) := by
  simp only [exec, execDrw, (memRead_eq_some s.mem _ _ _).mpr ⟨h, rfl⟩, afterDraw, drawn]

theorem exec_bcd_of_inBounds {s : State} (x : Nibble) (h : s.address + 3 ≤ 4096) :
    exec (.bcd x) s = .next (s.setMem (s.mem.writeBytes s.address (bcdDigits (s.readV x)))) := by
  simp only [exec, execBcd, (memWrite_eq_some s.mem _ _ (bcdDigits (s.readV x))).mpr ⟨h, rfl⟩]

theorem exec_stRegs_of_inBounds {s : State} {x : Nibble} (h : s.address + blockLen x ≤ 4096) :
    exec (.stRegs x) s = .next ((s.setMem (s.mem.writeBytes s.address (regBlock s x))).setI
      (BitVec.ofNat 16 (s.address + blockLen x))) := by
  have hlen : s.address + (regBlock s x).length ≤ 4096 := by rwa [regBlock_length]
  simp only [exec, execStRegs, (memWrite_eq_some s.mem _ _ _).mpr ⟨hlen, rfl⟩]

/-- How many bytes at `I` an instruction accesses (`20_memory.md` R52, R53). -/
def accessLen : Instr → Option Nat
  | .drw _ _ n => some n.toNat
  | .bcd _ => some 3
  | .stRegs x | .ldRegs x => some (blockLen x)
  | _ => none

/-- An access that leaves memory faults as a whole (`20_memory.md` R52, R53). -/
theorem exec_of_outOfBounds {i : Instr} {s : State} {n : Nat} (hi : accessLen i = some n)
    (h : 4096 < s.address + n) : exec i s = raiseBounds i s.address n s := by
  cases i with
  | drw x y k =>
    cases hi
    simp only [exec, execDrw, (memRead_eq_none s.mem _ _).mpr h]
  | bcd x =>
    cases hi
    simp only [exec, execBcd, (memWrite_eq_none s.mem _ (bcdDigits (s.readV x))).mpr h]
  | stRegs x =>
    cases hi
    have hlen : 4096 < s.address + (regBlock s x).length := by rwa [regBlock_length]
    simp only [exec, execStRegs, (memWrite_eq_none s.mem _ _).mpr hlen]
  | ldRegs x =>
    cases hi
    exact exec_ldRegs_of_outOfBounds h
  | _ => cases hi

/-- The access of an instruction leaves memory, or the instruction accesses memory in bounds only. -/
theorem access_cases (i : Instr) (s : State) : (∃ n, accessLen i = some n ∧ 4096 < s.address + n) ∨
    ∀ n, accessLen i = some n → s.address + n ≤ 4096 := by
  by_cases hout : ∃ n, accessLen i = some n ∧ 4096 < s.address + n
  · exact .inl hout
  · exact .inr fun n hi => not_lt.mp fun hn => hout ⟨n, hi, hn⟩

/-- An access that is answered was in bounds. -/
theorem inBounds_of_exec {i : Instr} {s t : State} {n : Nat} (hi : accessLen i = some n) (h : exec i s = .next t) :
    s.address + n ≤ 4096 := by
  by_contra hout
  rw [exec_of_outOfBounds hi (not_le.mp hout)] at h
  cases h

/-- RET is answered on a non-empty stack only. -/
theorem next_of_exec_ret {s t : State} (h : exec .ret s = .next t) :
    ∃ a rest, s.stack = a :: rest ∧ t = (s.setStack rest).setPc a := by
  cases hs : s.stack with
  | nil => rw [exec_ret_of_nil hs] at h; cases h
  | cons a rest =>
    rw [exec_ret_of_cons hs] at h
    cases h
    exact ⟨a, rest, rfl, rfl⟩

/-- CALL is answered below depth 16 only. -/
theorem next_of_exec_call {nnn : Addr12} {s t : State} (h : exec (.call nnn) s = .next t) :
    s.stack.length < 16 ∧ t = (s.setStack (s.pc :: s.stack)).setPc (zext16 nnn) := by
  obtain hlt | hfull := Nat.lt_or_ge s.stack.length 16
  · rw [exec_call_of_lt nnn hlt] at h
    cases h
    exact ⟨hlt, rfl⟩
  · rw [exec_call_of_full nnn hfull] at h
    cases h

/-- A skip is one update of `pc` (`40_flow.md` R105). -/
theorem skipIf_eq (c : Bool) (s : State) : skipIf c s = s.setPc (if c then s.pc + 2 else s.pc) := by
  cases c <;> rfl

/-! What an instruction changes -/

/-- The fields an instruction may change: `t` is `s` in all others (`10_state.md` R39). -/
def Frame (s t : State) : Instr → Prop
  | .cls => t = { s with px := t.px, dirty := t.dirty }
  | .ret | .call _ => t = { s with pc := t.pc, stack := t.stack }
  | .jp _ | .jpV0 _ | .seImm _ _ | .sneImm _ _ | .seReg _ _ | .sneReg _ _ | .skp _ | .sknp _ =>
    t = { s with pc := t.pc }
  | .ldI _ | .addI _ | .ldF _ => t = { s with I := t.I }
  | .rnd _ _ => t = { s with V := t.V, draws := t.draws }
  | .drw _ _ _ => t = { s with V := t.V, px := t.px, dirty := t.dirty, needsRedraw := t.needsRedraw }
  | .ldVxK _ => t = { s with runState := t.runState }
  | .ldDtVx _ => t = { s with DT := t.DT }
  | .ldStVx _ => t = { s with ST := t.ST }
  | .bcd _ => t = { s with mem := t.mem }
  | .stRegs _ => t = { s with mem := t.mem, I := t.I }
  | _ => t = { s with V := t.V }

/-- Every instruction keeps to its frame. -/
theorem frame_of_exec {i : Instr} {s t : State} (h : exec i s = .next t) : Frame s t i := by
  cases i with
  | ret =>
    obtain ⟨a, rest, -, rfl⟩ := next_of_exec_ret h
    rfl
  | call nnn =>
    obtain ⟨-, rfl⟩ := next_of_exec_call h
    rfl
  | drw x y n =>
    rw [exec_drw_of_inBounds x y (inBounds_of_exec rfl h)] at h
    cases h
    rfl
  | bcd x =>
    rw [exec_bcd_of_inBounds x (inBounds_of_exec rfl h)] at h
    cases h
    rfl
  | stRegs x =>
    rw [exec_stRegs_of_inBounds (inBounds_of_exec rfl h)] at h
    cases h
    rfl
  | ldRegs x =>
    rw [exec_ldRegs_of_inBounds (inBounds_of_exec rfl h)] at h
    cases h
    exact setRegsFrom_frame _ s 0
  | seImm | sneImm | seReg | sneReg | skp | sknp =>
    cases h
    rw [skipIf_eq]
    rfl
  | _ => cases h; rfl

/-- Settles O48: an instruction changes the fields of its frame only. -/
theorem instructionsTouchOnlyTheirState : Obligations.InstructionsTouchOnlyTheirState := by
  unfold Obligations.InstructionsTouchOnlyTheirState
  intro i s t h
  have hframe := frame_of_exec h
  cases i <;> rw [hframe] <;> simp [Instr.mnemonic]

/-! The kinds of step -/

/-- The wait resolves with the last key while it is held (`44_keys_timers.md` R183). -/
theorem resolveKey_of_held {s : State} {k : Nibble} (x : Nibble) (hk : s.lastKey = some k)
    (hheld : s.keyHeld k.toNat = true) : resolveKey x s = (s.setV x (zext8 k)).setRun .running := by
  simp only [resolveKey, hk, hheld, if_true]

/-- The wait goes on while no held key is the last key (`44_keys_timers.md` R183). -/
theorem resolveKey_of_not_held {s : State} (x : Nibble)
    (h : ∀ k : Nibble, s.lastKey = some k → s.keyHeld k.toNat = false) : resolveKey x s = s := by
  unfold resolveKey
  split
  next k hk => rw [h k hk, if_neg Bool.false_ne_true]
  next => rfl

theorem key_held_or_not (s : State) : (∃ k : Nibble, s.lastKey = some k ∧ s.keyHeld k.toNat = true) ∨
    ∀ k : Nibble, s.lastKey = some k → s.keyHeld k.toNat = false := by
  cases hk : s.lastKey with
  | none => simp
  | some k => cases hheld : s.keyHeld k.toNat <;> simp [hheld]

/-- On the engine's turn in Running the step is a fetch and what comes of it (`40_flow.md` R100). -/
theorem step_running {s : State} (hr : s.runState = .running) (ht : s.isEngineTurn = true) :
    step s = fetchExecute s.turnTaken := by
  rw [step_engine (by simp [hr]) ht, engineStep, State.turnTaken_runState, hr]

/-- On the engine's turn in AwaitingKey the step is the resolution of the wait (`40_flow.md` R101). -/
theorem step_awaitingKey {s : State} {x : Nibble} (hr : s.runState = .awaitingKey x) (ht : s.isEngineTurn = true) :
    step s = .next (resolveKey x s.turnTaken) := by
  rw [step_engine (by simp [hr]) ht, engineStep, State.turnTaken_runState, hr]

/-- Which kind of step a state takes. -/
theorem step_kinds (s : State) :
    (∃ r, s.runState = .faulted r) ∨
    (∃ e rest, (∀ r, s.runState ≠ .faulted r) ∧ s.schedule = .event e :: rest) ∨
    (s.runState = .running ∧ s.isEngineTurn = true) ∨
    (∃ x, s.runState = .awaitingKey x ∧ s.isEngineTurn = true) := by
  cases hr : s.runState with
  | faulted r => exact .inl ⟨r, rfl⟩
  | running =>
    obtain ht | ⟨e, rest, he⟩ := isEngineTurn_or_event s
    · exact .inr (.inr (.inl ⟨rfl, ht⟩))
    · exact .inr (.inl ⟨e, rest, by simp, he⟩)
  | awaitingKey x =>
    obtain ht | ⟨e, rest, he⟩ := isEngineTurn_or_event s
    · exact .inr (.inr (.inr ⟨x, rfl, ht⟩))
    · exact .inr (.inl ⟨e, rest, by simp, he⟩)

theorem isFaulted_of_faulted {s : State} {r : FaultRecord} (h : s.runState = .faulted r) : s.isFaulted = true := by
  simp [State.isFaulted, State.faultRecord, h]

theorem isFaulted_eq_false_iff (s : State) : s.isFaulted = false ↔ ∀ r, s.runState ≠ .faulted r := by
  unfold State.isFaulted State.faultRecord
  cases s.runState <;> simp

/-- What a state that executes an instruction is like. -/
theorem nextInstr_eq_some_iff (s : State) (i : Instr) : s.nextInstr = some i ↔
    s.runState = .running ∧ s.isEngineTurn = true ∧ s.pc.toNat + 2 ≤ 4096 ∧ decodeWord s.fetchedWord = some i := by
  simp [State.nextInstr, State.fetches, and_assoc]

/-- The resolution of a wait changes a register and the run state at most. -/
theorem resolveKey_frame (x : Nibble) (s : State) :
    resolveKey x s = { s with V := (resolveKey x s).V, runState := (resolveKey x s).runState } := by
  obtain h | ⟨k, h⟩ := resolveKey_cases x s
  · rw [h]
  · rw [h]; rfl

/-- An event changes timers, keys, `dirty` or `needs_redraw` at most (`20_memory.md` R61). -/
theorem applyEvent_frame (e : Event) (s : State) :
    applyEvent e s = { s with
      DT := (applyEvent e s).DT, ST := (applyEvent e s).ST, dirty := (applyEvent e s).dirty
      needsRedraw := (applyEvent e s).needsRedraw, pressed := (applyEvent e s).pressed
      lastKey := (applyEvent e s).lastKey } := by
  unfold applyEvent
  cases s.isFaulted <;> cases e <;> rfl

@[simp] theorem mem_resolveKey (x : Nibble) (s : State) : (resolveKey x s).mem = s.mem := by
  rw [resolveKey_frame]

@[simp] theorem stack_resolveKey (x : Nibble) (s : State) : (resolveKey x s).stack = s.stack := by
  rw [resolveKey_frame]

@[simp] theorem mem_applyEvent (e : Event) (s : State) : (applyEvent e s).mem = s.mem := by
  rw [applyEvent_frame]

@[simp] theorem stack_applyEvent (e : Event) (s : State) : (applyEvent e s).stack = s.stack := by
  rw [applyEvent_frame]

@[simp] theorem px_applyEvent (e : Event) (s : State) : (applyEvent e s).px = s.px := by
  rw [applyEvent_frame]

@[simp] theorem runState_applyEvent (e : Event) (s : State) : (applyEvent e s).runState = s.runState := by
  rw [applyEvent_frame]

end Sys2Proof.Machine
end

section
/-! PROOF. What only the host reads (`10_state.md` R30, R34, R35): a program does not see it. -/

namespace Sys2Proof.Machine

/-- The state with everything that only the host reads at a fixed value. -/
def State.hideOutputs (s : State) : State := { s with ST := 0, dirty := Grid.blank, needsRedraw := false }

/-- States that differ in the outputs alone are those that look the same with the outputs hidden. -/
theorem sameButOutputs_iff (s t : State) : SameButOutputs s t ↔ s.hideOutputs = t.hideOutputs := by
  constructor
  · intro h
    rw [h]
    rfl
  · intro h
    cases s
    cases t
    simp only [State.hideOutputs, State.mk.injEq] at h
    simp only [SameButOutputs, h]

/-- What is left of an outcome with the outputs hidden. -/
def visible : Host.Outcome State Fault Refusal → Host.Outcome State (FaultRecord × State) Refusal
  | .next t => .next t.hideOutputs
  | .fault f => .fault (f.record, f.final.hideOutputs)
  | .refused q => .refused q

theorem sameOutcome_of_visible_eq {o o' : Host.Outcome State Fault Refusal} (h : visible o = visible o') :
    SameOutcome SameButOutputs o o' := by
  cases o with
  | next s =>
    cases o' with
    | next t => exact (sameButOutputs_iff s t).mpr (Host.Outcome.next.inj h)
    | fault | refused => cases h
  | fault f =>
    cases o' with
    | fault g =>
      obtain ⟨hrecord, hfinal⟩ := Prod.mk.inj (Host.Outcome.fault.inj h)
      exact ⟨hrecord, (sameButOutputs_iff _ _).mpr hfinal⟩
    | next | refused => cases h
  | refused q =>
    cases o' with
    | refused p => exact Host.Outcome.refused.inj h
    | next | fault => cases h

theorem visible_fault (r : FaultRecord) (s : State) :
    visible (.fault (faultOf r s)) = .fault (r, s.hideOutputs) := by
  simp only [visible, faultOf_record, faultOf_final]

/-- One record raised with and without the outputs. -/
theorem visible_raise_hideOutputs (r : FaultRecord) (s : State) :
    visible (raise r s.hideOutputs) = visible (raise r s) := by
  rw [raise, raise, visible_fault, visible_fault]
  rfl

/-- The pixels and the collision of a draw do not depend on `dirty`. -/
theorem drawSprite_of_px_eq (vx row : Nat) (bs : List Byte) {d e : Canvas} (hpx : d.px = e.px)
    (hcoll : d.coll = e.coll) :
    (drawSprite vx row bs d).px = (drawSprite vx row bs e).px ∧
    (drawSprite vx row bs d).coll = (drawSprite vx row bs e).coll := by
  obtain ⟨hdpx, -, hdcoll⟩ := drawSprite_spec vx bs row d
  obtain ⟨hepx, -, hecoll⟩ := drawSprite_spec vx bs row e
  constructor
  · apply Grid.ext_cell
    intro r c _ _
    rw [hdpx, hepx, hpx]
  · rw [Bool.eq_iff_iff, hdcoll, hecoll, hpx, hcoll]

theorem hideOutputs_hideOutputs (s : State) : s.hideOutputs.hideOutputs = s.hideOutputs := rfl

theorem setRegsFrom_hideOutputs (vs : List Byte) : ∀ (s : State) (k : Nat),
    setRegsFrom s.hideOutputs k vs = (setRegsFrom s k vs).hideOutputs := by
  induction vs with
  | nil => exact fun _ _ => rfl
  | cons v vs ih => exact fun s k => ih (s.setV (BitVec.ofNat 4 k) v) (k + 1)

theorem regBlock_hideOutputs (s : State) (x : Nibble) : regBlock s.hideOutputs x = regBlock s x := by
  have hregs : ∀ n k, regsFrom s.hideOutputs k n = regsFrom s k n := by
    intro n
    induction n with
    | zero => exact fun _ => rfl
    | succ n ih => exact fun k => congrArg (s.readV (BitVec.ofNat 4 k) :: ·) (ih (k + 1))
  exact hregs (blockLen x) 0

theorem hideOutputs_skipIf (c : Bool) (s : State) :
    (skipIf c s.hideOutputs).hideOutputs = (skipIf c s).hideOutputs := by
  cases c <;> rfl

/-- An access out of bounds faults with and without the outputs. -/
theorem visible_exec_of_outOfBounds {i : Instr} {s : State} {n : Nat} (hi : accessLen i = some n)
    (h : 4096 < s.address + n) : visible (exec i s.hideOutputs) = visible (exec i s) := by
  rw [exec_of_outOfBounds hi h, exec_of_outOfBounds (s := s.hideOutputs) hi h]
  exact visible_raise_hideOutputs _ s

/-- No instruction reads the outputs. -/
theorem visible_exec_hideOutputs (i : Instr) (s : State) : visible (exec i s.hideOutputs) = visible (exec i s) := by
  obtain ⟨n, hi, hout⟩ | hin := access_cases i s
  · exact visible_exec_of_outOfBounds hi hout
  cases i with
  | ret =>
    cases hs : s.stack with
    | nil =>
      rw [exec_ret_of_nil hs, exec_ret_of_nil (s := s.hideOutputs) hs]
      exact visible_raise_hideOutputs _ s
    | cons a rest =>
      rw [exec_ret_of_cons hs, exec_ret_of_cons (s := s.hideOutputs) hs]
      rfl
  | call nnn =>
    obtain h | h := Nat.lt_or_ge s.stack.length 16
    · rw [exec_call_of_lt nnn h, exec_call_of_lt (s := s.hideOutputs) nnn h]
      rfl
    · rw [exec_call_of_full nnn h, exec_call_of_full (s := s.hideOutputs) nnn h]
      exact visible_raise_hideOutputs _ s
  | drw x y n =>
    have h := hin _ rfl
    obtain ⟨hpx, hcoll⟩ : (drawn s.hideOutputs x y n).px = (drawn s x y n).px ∧
        (drawn s.hideOutputs x y n).coll = (drawn s x y n).coll := drawSprite_of_px_eq _ _ _ rfl rfl
    rw [exec_drw_of_inBounds x y h, exec_drw_of_inBounds (s := s.hideOutputs) x y h, afterDraw, hpx, hcoll]
    rfl
  | bcd x =>
    rw [exec_bcd_of_inBounds x (hin _ rfl), exec_bcd_of_inBounds (s := s.hideOutputs) x (hin _ rfl)]
    rfl
  | stRegs x =>
    rw [exec_stRegs_of_inBounds (hin _ rfl), exec_stRegs_of_inBounds (s := s.hideOutputs) (hin _ rfl),
      regBlock_hideOutputs]
    rfl
  | ldRegs x =>
    rw [exec_ldRegs_of_inBounds (hin _ rfl), exec_ldRegs_of_inBounds (s := s.hideOutputs) (hin _ rfl),
      setRegsFrom_hideOutputs]
    exact congrArg Host.Outcome.next (hideOutputs_hideOutputs _)
  | seImm | sneImm | seReg | sneReg | skp | sknp =>
    exact congrArg Host.Outcome.next (hideOutputs_skipIf _ s)
  | _ => rfl

/-- No fetch and no decode reads the outputs. -/
theorem visible_fetchExecute_hideOutputs (s : State) :
    visible (fetchExecute s.hideOutputs) = visible (fetchExecute s) := by
  have hword : s.hideOutputs.fetchedWord = s.fetchedWord := rfl
  have hpc : s.hideOutputs.pc = s.pc := rfl
  rw [fetchExecute_eq, fetchExecute_eq, hword, hpc]
  by_cases hb : s.pc.toNat + 2 ≤ 4096
  · rw [if_pos hb, if_pos hb]
    cases decodeWord s.fetchedWord with
    | some i => exact visible_exec_hideOutputs i s.advancePc
    | none => exact visible_raise_hideOutputs _ s.advancePc
  · rw [if_neg hb, if_neg hb]
    exact visible_raise_hideOutputs _ s

theorem hideOutputs_resolveKey (x : Nibble) (s : State) :
    (resolveKey x s.hideOutputs).hideOutputs = (resolveKey x s).hideOutputs := by
  obtain ⟨k, hk, hheld⟩ | hno := key_held_or_not s
  · rw [resolveKey_of_held x hk hheld, resolveKey_of_held (s := s.hideOutputs) x hk hheld]
    rfl
  · rw [resolveKey_of_not_held x hno, resolveKey_of_not_held (s := s.hideOutputs) x hno]
    rfl

theorem hideOutputs_applyEvent (e : Event) (s : State) :
    (applyEvent e s.hideOutputs).hideOutputs = (applyEvent e s).hideOutputs := by
  have hfaulted : s.hideOutputs.isFaulted = s.isFaulted := rfl
  unfold applyEvent
  rw [hfaulted]
  cases s.isFaulted <;> cases e <;> rfl

/-- No step reads the outputs: with and without them it tells the same. -/
theorem visible_step_hideOutputs (s : State) : visible (step s.hideOutputs) = visible (step s) := by
  obtain ⟨r, hr⟩ | ⟨e, rest, hf, he⟩ | ⟨hr, ht⟩ | ⟨x, hr, ht⟩ := step_kinds s
  · rw [step_faulted hr, step_faulted (s := s.hideOutputs) hr, visible_fault, visible_fault]
    rfl
  · rw [step_event hf he, step_event (s := s.hideOutputs) hf he]
    exact congrArg Host.Outcome.next (hideOutputs_applyEvent e (s.setSchedule rest))
  · rw [step_running hr ht, step_running (s := s.hideOutputs) hr ht]
    exact visible_fetchExecute_hideOutputs s.turnTaken
  · rw [step_awaitingKey hr ht, step_awaitingKey (s := s.hideOutputs) hr ht]
    exact congrArg Host.Outcome.next (hideOutputs_resolveKey x s.turnTaken)

/-- Settles O49: states that look the same with the outputs hidden take steps that look the same. -/
theorem hostOutputsAreNotSeen : Obligations.HostOutputsAreNotSeen := by
  unfold Obligations.HostOutputsAreNotSeen
  intro s t h
  apply sameOutcome_of_visible_eq
  calc visible (step s)
      _ = visible (step s.hideOutputs) := (visible_step_hideOutputs s).symm
      _ = visible (step t.hideOutputs) := by rw [(sameButOutputs_iff s t).mp h]
      _ = visible (step t) := visible_step_hideOutputs t

end Sys2Proof.Machine
end

section
/-! PROOF. Control flow and memory: what an instruction and a step do to `pc`, the stack, memory and the run state, and
the invariants that follow (`10_state.md` R26, R27, `70_reset_and_hazards.md` R242). -/

namespace Sys2Proof.Machine

/-! One instruction -/

/-- Everything an instruction does to `pc` and the stack (`40_flow.md` R100 to R109). -/
theorem flow_of_exec {i : Instr} {s t : State} (h : exec i s = .next t) :
    (t.stack = s.stack ∧ (t.pc = s.pc ∨ t.pc = s.pc + 2)) ∨
    (∃ nnn, i = .jp nnn ∧ t.stack = s.stack ∧ t.pc = zext16 nnn) ∨
    (∃ nnn, i = .jpV0 nnn ∧ t.stack = s.stack ∧ t.pc = zext16 nnn + zext16 (s.readV 0)) ∨
    (∃ a, i = .ret ∧ s.stack = a :: t.stack ∧ t.pc = a) ∨
    (∃ nnn, i = .call nnn ∧ s.stack.length < 16 ∧ t.stack = s.pc :: s.stack ∧ t.pc = zext16 nnn) := by
  have hframe := frame_of_exec h
  cases i with
  | jp nnn => cases h; exact .inr (.inl ⟨nnn, rfl, rfl, rfl⟩)
  | jpV0 nnn => cases h; exact .inr (.inr (.inl ⟨nnn, rfl, rfl, rfl⟩))
  | ret =>
    obtain ⟨a, rest, hs, rfl⟩ := next_of_exec_ret h
    exact .inr (.inr (.inr (.inl ⟨a, rfl, hs, rfl⟩)))
  | call nnn =>
    obtain ⟨hlt, rfl⟩ := next_of_exec_call h
    exact .inr (.inr (.inr (.inr ⟨nnn, rfl, hlt, rfl, rfl⟩)))
  | seImm | sneImm | seReg | sneReg | skp | sknp =>
    cases h
    rw [skipIf_eq]
    exact .inl ⟨rfl, (ite_eq_or_eq _ _ _).symm⟩
  | _ => rw [hframe]; exact .inl ⟨rfl, .inl rfl⟩

/-- The bytes an instruction stores at `I`: the digits of LD B, the registers of LD [I] (`42_index_memory.md` R144,
R145). -/
def storedBytes (s : State) : Instr → List Byte
  | .bcd x => bcdDigits (s.readV x)
  | .stRegs x => regBlock s x
  | _ => []

/-- Everything an instruction does to memory. -/
theorem mem_of_exec {i : Instr} {s t : State} (h : exec i s = .next t) :
    t.mem = s.mem ∨ s.address + (storedBytes s i).length ≤ 4096 ∧
      t.mem = s.mem.writeBytes s.address (storedBytes s i) := by
  have hframe := frame_of_exec h
  cases i with
  | bcd x =>
    have hin := inBounds_of_exec rfl h
    rw [exec_bcd_of_inBounds x hin] at h
    cases h
    exact .inr ⟨hin, rfl⟩
  | stRegs x =>
    have hin := inBounds_of_exec rfl h
    rw [exec_stRegs_of_inBounds hin] at h
    cases h
    exact .inr ⟨by rwa [storedBytes, regBlock_length], rfl⟩
  | _ => rw [hframe]; exact .inl rfl

/-- Everything an instruction does to the run state (`44_keys_timers.md` R182). -/
theorem runState_of_exec {i : Instr} {s t : State} (h : exec i s = .next t) :
    t.runState = s.runState ∨ ∃ x, i = .ldVxK x ∧ t.runState = .awaitingKey x := by
  have hframe := frame_of_exec h
  cases i with
  | ldVxK x => cases h; exact .inr ⟨x, rfl, rfl⟩
  | _ => rw [hframe]; exact .inl rfl

/-- No instruction writes the keyboard state (`10_state.md` R32). -/
theorem keys_of_exec {i : Instr} {s t : State} (h : exec i s = .next t) :
    t.pressed = s.pressed ∧ t.lastKey = s.lastKey := by
  have hframe := frame_of_exec h
  cases i <;> rw [hframe] <;> exact ⟨rfl, rfl⟩

/-! The invariant of a run -/

/-- The invariant is about memory, the stack and `pc` only. -/
theorem State.Inv.congr {s t : State} (hs : s.Inv) (hmem : t.mem = s.mem) (hstack : t.stack = s.stack)
    (hpc : t.pc = s.pc) : t.Inv :=
  ⟨hmem ▸ hs.mem, hstack ▸ hs.depth, hstack ▸ hs.returns, hpc ▸ hs.pc⟩

/-- An instruction keeps the invariant when `pc`, already advanced, is at most the end of memory: a skip adds 2, the
greatest target is 0xFFF and the greatest sum of JP V0 is 0xFFF + 0xFF. -/
theorem inv_of_exec {i : Instr} {s t : State} (hs : s.Inv) (hpc : s.pc.toNat ≤ 0x1000) (h : exec i s = .next t) :
    t.Inv := by
  obtain ⟨hmem, hdepth, hreturns, -⟩ := hs
  have hwf : t.mem.wf := by
    obtain hsame | ⟨hin, hwrite⟩ := mem_of_exec h
    · exact hsame ▸ hmem
    · exact hwrite ▸ Memory.writeBytes_wf _ hmem hin
  have htarget : ∀ nnn : Addr12, (zext16 nnn).toNat ≤ 0xFFF := fun nnn => by
    rw [zext16_toNat (by decide)]
    omega
  obtain ⟨hstack, hpc' | hpc'⟩ | ⟨nnn, -, hstack, hpc'⟩ | ⟨nnn, -, hstack, hpc'⟩ | ⟨a, -, hstack, hpc'⟩ |
    ⟨nnn, -, hlt, hstack, hpc'⟩ := flow_of_exec h
  · exact ⟨hwf, hstack ▸ hdepth, hstack ▸ hreturns, by rw [hpc']; omega⟩
  · exact ⟨hwf, hstack ▸ hdepth, hstack ▸ hreturns, by bv_omega⟩
  · exact ⟨hwf, hstack ▸ hdepth, hstack ▸ hreturns, by rw [hpc']; exact (htarget nnn).trans (by decide)⟩
  · have hv : (zext16 (s.readV 0)).toNat ≤ 0xFF := by
      rw [zext16_toNat (by decide)]
      omega
    have hnnn := htarget nnn
    exact ⟨hwf, hstack ▸ hdepth, hstack ▸ hreturns, by rw [hpc', BitVec.toNat_add]; omega⟩
  · simp only [hstack, List.length_cons, List.forall_mem_cons] at hdepth hreturns
    obtain ⟨ha, hrest⟩ := hreturns
    exact ⟨hwf, by omega, hrest, by rw [hpc']; omega⟩
  · refine ⟨hwf, by rw [hstack, List.length_cons]; omega, ?_, by rw [hpc']; exact (htarget nnn).trans (by decide)⟩
    rw [hstack, List.forall_mem_cons]
    exact ⟨hpc, hreturns⟩

/-- Settles O50: events and the key wait leave memory, stack and `pc`, and an instruction is executed only after a
fetch in bounds. -/
theorem everyStepKeepsTheInvariant : Obligations.EveryStepKeepsTheInvariant := by
  unfold Obligations.EveryStepKeepsTheInvariant
  intro s t hs h
  obtain ⟨e, rest, -, -, rfl⟩ | ⟨x, -, -, rfl⟩ | ⟨i, hi, hexec⟩ := step_next_cases h
  · exact hs.congr (mem_applyEvent e _) (stack_applyEvent e _) (pc_applyEvent e _)
  · exact hs.congr (mem_resolveKey x _) (stack_resolveKey x _) (pc_resolveKey x _)
  · obtain ⟨-, -, hfetch, -⟩ := (nextInstr_eq_some_iff s i).mp hi
    have hpc : s.turnTaken.advancePc.pc.toNat ≤ 0x1000 := by
      rw [State.advancePc_pc, State.turnTaken_pc]
      bv_omega
    have hadvanced : s.turnTaken.advancePc.Inv := ⟨hs.mem, hs.depth, hs.returns, hpc.trans (by decide)⟩
    exact inv_of_exec hadvanced hpc hexec

/-- Settles O51: memory and stack are empty and `pc` is 0x200. -/
theorem resetSatisfiesTheInvariant : Obligations.ResetSatisfiesTheInvariant := by
  unfold Obligations.ResetSatisfiesTheInvariant
  exact ⟨⟨.nil, by simp [State.reset]⟩, by decide, by simp [State.reset], by decide⟩

/-! The run state and the keyboard -/

/-- Everything a step does to the run state (`10_state.md` R33). -/
theorem step_runState_cases {s t : State} (h : step s = .next t) :
    (∀ r, s.runState ≠ .faulted r) ∧
    (t.runState = s.runState ∨
      (∃ x, s.nextInstr = some (.ldVxK x) ∧ t.runState = .awaitingKey x) ∨
      (∃ x k, s.runState = .awaitingKey x ∧ s.isEngineTurn = true ∧ s.lastKey = some k ∧
        s.keyHeld k.toNat = true ∧ t.runState = .running)) := by
  obtain ⟨e, rest, -, hs, rfl⟩ | ⟨x, hr, ht, rfl⟩ | ⟨i, hi, hexec⟩ := step_next_cases h
  · exact ⟨(isFaulted_eq_false_iff _).mp hs, .inl (runState_applyEvent e _)⟩
  · refine ⟨by simp [hr], ?_⟩
    obtain ⟨k, hk, hheld⟩ | hno := key_held_or_not s
    · rw [resolveKey_of_held (s := s.turnTaken) x hk hheld]
      exact .inr (.inr ⟨x, k, hr, ht, hk, hheld, rfl⟩)
    · rw [resolveKey_of_not_held (s := s.turnTaken) x hno]
      exact .inl rfl
  · obtain ⟨hr, -, -, -⟩ := (nextInstr_eq_some_iff s i).mp hi
    refine ⟨by simp [hr], ?_⟩
    obtain hsame | ⟨x, rfl, hwait⟩ := runState_of_exec hexec
    · exact .inl hsame
    · exact .inr (.inl ⟨x, hi, hwait⟩)

/-- A step that answers a next state does not end in Faulted (`60_exceptions.md` R204). -/
theorem not_faulted_of_step {s t : State} (h : step s = .next t) (r : FaultRecord) : t.runState ≠ .faulted r := by
  obtain ⟨hf, hsame | ⟨x, -, hwait⟩ | ⟨x, k, -, -, -, -, hrun⟩⟩ := step_runState_cases h
  · exact hsame ▸ hf r
  · simp [hwait]
  · simp [hrun]

/-- The engine leaves the keyboard state (`10_state.md` R32). -/
theorem keys_of_step {s t : State} (ht : s.isEngineTurn = true) (h : step s = .next t) :
    t.pressed = s.pressed ∧ t.lastKey = s.lastKey := by
  obtain ⟨e, rest, hsched, -, -⟩ | ⟨x, -, -, rfl⟩ | ⟨i, -, hexec⟩ := step_next_cases h
  · simp [State.isEngineTurn, hsched] at ht
  · rw [resolveKey_frame]
    exact ⟨rfl, rfl⟩
  · exact keys_of_exec (s := s.turnTaken.advancePc) hexec

/-- Settles O47: read off what a step can do to the run state and what the engine does to the keyboard. -/
theorem runStateAndKeyboardWriters : Obligations.RunStateAndKeyboardWriters := by
  unfold Obligations.RunStateAndKeyboardWriters
  intro s t h
  obtain ⟨-, hcases⟩ := step_runState_cases h
  exact ⟨not_faulted_of_step h, hcases.resolve_left, fun ht => keys_of_step ht h⟩

/-! Runs of loaded programs -/

/-- A program that fits is written from 0x200 (`70_reset_and_hazards.md` R236). -/
theorem loadProgram_of_le {bytes : List Byte} {s : State} (hf : ∀ r, s.runState ≠ .faulted r)
    (h : 0x200 + bytes.length ≤ 4096) :
    loadProgram bytes s = .next (s.setMem (s.mem.writeBytes 0x200 bytes)) := by
  unfold loadProgram
  split
  next r hr => exact absurd hr (hf r)
  next => rw [(memWrite_eq_some s.mem _ _ _).mpr ⟨h, rfl⟩]

/-- A program that does not fit is a bounds fault (`70_reset_and_hazards.md` R236). -/
theorem loadProgram_of_gt {bytes : List Byte} {s : State} (hf : ∀ r, s.runState ≠ .faulted r)
    (h : 4096 < 0x200 + bytes.length) :
    loadProgram bytes s = raise ⟨.bounds, 0x200, bytes.length, 0, none, s.pc⟩ s := by
  unfold loadProgram
  split
  next r hr => exact absurd hr (hf r)
  next => rw [(memWrite_eq_none s.mem _ _).mpr h]

/-- A machine that is Running after a boot satisfies the invariant. -/
theorem boot_inv {bytes : List Byte} {s : State} (h : boot bytes = .next s) : s.Inv ∧ s.runState = .running := by
  have hf : ∀ r, State.reset.runState ≠ .faulted r := by simp [State.reset]
  rw [boot] at h
  obtain hgt | hle := Nat.lt_or_ge 4096 (0x200 + bytes.length)
  · rw [loadProgram_of_gt hf hgt] at h
    cases h
  · rw [loadProgram_of_le hf hle] at h
    cases h
    obtain ⟨hmem, hdepth, hreturns, hpc⟩ := resetSatisfiesTheInvariant
    exact ⟨⟨Memory.writeBytes_wf bytes hmem hle, hdepth, hreturns, hpc⟩, rfl⟩

/-- What every step keeps holds wherever a run comes to. -/
theorem Reaches.keeps {P : State → Prop} (hstep : ∀ s t, P s → step s = .next t → P t) {s t : State}
    (h : Reaches s t) (hs : P s) : P t := by
  induction h with
  | refl => exact hs
  | tail _ hlast ih => exact hstep _ _ ih hlast

/-- Settles O52: loading establishes the invariant of O50 and every step keeps it. -/
theorem everyRunOfEveryProgramIsInRange : Obligations.EveryRunOfEveryProgramIsInRange := by
  unfold Obligations.EveryRunOfEveryProgramIsInRange
  intro bytes s t turns hboot hreach
  obtain ⟨hinv, hrun⟩ := boot_inv hboot
  have hkept : t.Inv ∧ ∀ r, t.runState ≠ .faulted r := by
    refine hreach.keeps (P := fun u => u.Inv ∧ ∀ r, u.runState ≠ .faulted r) ?_ ⟨hinv.congr rfl rfl rfl, ?_⟩
    · exact fun u v ⟨hu, _⟩ h => ⟨everyStepKeepsTheInvariant u v hu h, not_faulted_of_step h⟩
    · simp [hrun]
  obtain ⟨hinv', hf⟩ := hkept
  have hpc := hinv'.pc
  exact ⟨hinv', hf, by omega⟩

/-! Even addresses -/

/-- `pc` and every return address are even. -/
def EvenFlow (s : State) : Prop := s.pc.toNat % 2 = 0 ∧ ∀ a ∈ s.stack, a.toNat % 2 = 0

/-- An instruction keeps even addresses when its target is even. -/
theorem evenFlow_of_exec {i : Instr} {s t : State} (hs : EvenFlow s)
    (hjump : ∀ nnn, i = .jp nnn ∨ i = .call nnn → nnn.toNat % 2 = 0)
    (hjumpV0 : ∀ nnn, i = .jpV0 nnn → (nnn.toNat + (s.readV 0).toNat) % 2 = 0) (h : exec i s = .next t) :
    EvenFlow t := by
  obtain ⟨hpc, hreturns⟩ := hs
  obtain ⟨hstack, hpc' | hpc'⟩ | ⟨nnn, hi, hstack, hpc'⟩ | ⟨nnn, hi, hstack, hpc'⟩ | ⟨a, -, hstack, hpc'⟩ |
    ⟨nnn, hi, -, hstack, hpc'⟩ := flow_of_exec h <;> rw [EvenFlow, hpc']
  · exact ⟨hpc, hstack ▸ hreturns⟩
  · exact ⟨by bv_omega, hstack ▸ hreturns⟩
  · exact ⟨by rw [zext16_toNat (by decide)]; exact hjump nnn (.inl hi), hstack ▸ hreturns⟩
  · have hsum := hjumpV0 nnn hi
    refine ⟨?_, hstack ▸ hreturns⟩
    rw [BitVec.toNat_add, zext16_toNat (by decide), zext16_toNat (by decide)]
    omega
  · rw [hstack, List.forall_mem_cons] at hreturns
    exact hreturns
  · rw [hstack, List.forall_mem_cons, zext16_toNat (by decide)]
    exact ⟨hjump nnn (.inr hi), hpc, hreturns⟩

/-- Settles O20: events and the key wait leave `pc` and the stack, and the engine executes with `pc` advanced by 2. -/
theorem evenPcIsKept : Obligations.EvenPcIsKept := by
  unfold Obligations.EvenPcIsKept
  intro s t h hpc hreturns hjump hjumpV0
  obtain ⟨e, rest, -, -, rfl⟩ | ⟨x, -, -, rfl⟩ | ⟨i, hi, hexec⟩ := step_next_cases h
  · rw [pc_applyEvent, stack_applyEvent]
    exact ⟨hpc, hreturns⟩
  · rw [pc_resolveKey, stack_resolveKey]
    exact ⟨hpc, hreturns⟩
  · have hadvanced : EvenFlow s.turnTaken.advancePc := by
      refine ⟨?_, hreturns⟩
      rw [State.advancePc_pc, State.turnTaken_pc]
      bv_omega
    rw [hi] at hjump hjumpV0
    simp only [Option.some.injEq] at hjump hjumpV0
    exact evenFlow_of_exec hadvanced hjump hjumpV0 hexec

/-! Memory -/

/-- A byte that an instruction changes is one of those it stores. -/
theorem address_of_changed_byte {i : Instr} {s t : State} {a : Nat} (h : exec i s = .next t)
    (hne : t.mem.readByte a ≠ s.mem.readByte a) :
    s.address ≤ a ∧ a < s.address + (storedBytes s i).length := by
  obtain hsame | ⟨-, hwrite⟩ := mem_of_exec h
  · exact absurd (congrArg (·.readByte a) hsame) hne
  · by_contra hout
    rw [hwrite, Memory.readByte_writeBytes, if_neg hout] at hne
    exact hne rfl

/-- Settles O34: the bytes an instruction stores stand at `I`, and no event stores any. -/
theorem memoryChangesOnlyByStores : Obligations.MemoryChangesOnlyByStores := by
  unfold Obligations.MemoryChangesOnlyByStores
  intro s t a h hne
  obtain ⟨e, rest, -, -, rfl⟩ | ⟨x, -, -, rfl⟩ | ⟨i, hi, hexec⟩ := step_next_cases h
  · rw [mem_applyEvent] at hne
    exact absurd rfl hne
  · rw [mem_resolveKey] at hne
    exact absurd rfl hne
  · obtain ⟨hlow, hhigh⟩ := address_of_changed_byte hexec hne
    rw [hi]
    cases i with
    | bcd x => exact .inl ⟨x, rfl, hlow, hhigh⟩
    | stRegs x =>
      rw [storedBytes, regBlock_length] at hhigh
      exact .inr ⟨x, rfl, hlow, hhigh⟩
    | _ => exact absurd hhigh (not_lt.mpr hlow)

end Sys2Proof.Machine
end

section
/-! PROOF. The step and its faults (`40_flow.md` R100, R101, `60_exceptions.md` R200 to R205). -/

namespace Sys2Proof.Machine

/-! A step in Running -/

/-- A fetch that leaves memory faults (`20_memory.md` R55). -/
theorem step_of_fetch_out_of_bounds {s : State} (hr : s.runState = .running) (ht : s.isEngineTurn = true)
    (hb : 4096 < s.pc.toNat + 2) : step s = raiseFetch s.turnTaken := by
  rw [step_running hr ht, fetchExecute_eq, State.turnTaken_pc, if_neg (not_le.mpr hb)]

/-- A word with no instruction faults with `pc` advanced (`30_encoding.md` R81). -/
theorem step_of_illegal_word {s : State} (hr : s.runState = .running) (ht : s.isEngineTurn = true)
    (hb : s.pc.toNat + 2 ≤ 4096) (hw : decodeWord s.fetchedWord = none) :
    step s = raiseDecode s.fetchedWord s.turnTaken.advancePc := by
  rw [step_running hr ht, fetchExecute_eq, State.turnTaken_pc, if_pos hb, State.turnTaken_fetchedWord, hw]

/-- The instruction at `pc` is executed with `pc` advanced (`40_flow.md` R100). -/
theorem step_of_nextInstr {s : State} {i : Instr} (hi : s.nextInstr = some i) :
    step s = exec i s.turnTaken.advancePc := by
  obtain ⟨hr, ht, hb, hw⟩ := (nextInstr_eq_some_iff s i).mp hi
  rw [step_running hr ht, fetchExecute_eq, State.turnTaken_pc, if_pos hb, State.turnTaken_fetchedWord, hw]

/-- What the two bytes at `pc` decode to, as the word at `pc`. -/
theorem decode_at_pc (s : State) : decode [s.mem.readByte s.pc.toNat, s.mem.readByte (s.pc.toNat + 1)] =
    (decodeWord s.fetchedWord).elim (.illegal s.fetchedWord) (.instr · []) := decode_cons_cons _ _ _

/-- Settles O5: the two bytes at `pc` decode to the next instruction. -/
theorem stepRunsDecodedInstruction : Obligations.StepRunsDecodedInstruction := by
  unfold Obligations.StepRunsDecodedInstruction
  intro s i hr ht hb hdecode
  rw [decode_at_pc] at hdecode
  cases hw : decodeWord s.fetchedWord with
  | none => simp [hw] at hdecode
  | some j =>
    simp only [hw, Option.elim_some, Decoded.instr.injEq, and_true] at hdecode
    exact step_of_nextInstr ((nextInstr_eq_some_iff s i).mpr ⟨hr, ht, hb, hdecode ▸ hw⟩)

/-- Settles O6: the fetch is checked before `pc` is advanced. -/
theorem fetchOutOfBoundsFaults : Obligations.FetchOutOfBoundsFaults := by
  unfold Obligations.FetchOutOfBoundsFaults
  exact fun s hr ht hb => step_of_fetch_out_of_bounds hr ht hb

/-- Settles O7: the word is decoded after `pc` is advanced, and the record's address is that of the word. -/
theorem illegalWordFaults : Obligations.IllegalWordFaults := by
  unfold Obligations.IllegalWordFaults
  intro s w hr ht hb hdecode r
  rw [decode_at_pc] at hdecode
  cases hw : decodeWord s.fetchedWord with
  | some j => simp [hw] at hdecode
  | none =>
    simp only [hw, Option.elim_none, Decoded.illegal.injEq] at hdecode
    have hipc : s.turnTaken.advancePc.pc - 2 = s.pc := BitVec.add_sub_cancel _ _
    rw [step_of_illegal_word hr ht hb hw, hdecode, raiseDecode, hipc]
    rfl

/-! Which step faults -/

/-- The record and the state of a raised fault (`60_exceptions.md` R204, R205). -/
theorem fault_of_raise {r : FaultRecord} {s : State} {f : Fault} (h : raise r s = .fault f) :
    f.record = r ∧ f.final = s.setRun (.faulted r) := by
  cases h
  exact ⟨faultOf_record r _, faultOf_final r _⟩

/-- An instruction answers a next state, or raises the fault of its cause (`60_exceptions.md` R201). -/
theorem exec_cases (i : Instr) (s : State) :
    (∃ t, exec i s = .next t) ∨
    (i = .ret ∧ s.stack = [] ∧ exec i s = raiseStack i .underflow s) ∨
    (∃ nnn, i = .call nnn ∧ 16 ≤ s.stack.length ∧ exec i s = raiseStack i .overflow s) ∨
    (∃ n, accessLen i = some n ∧ 4096 < s.address + n ∧ exec i s = raiseBounds i s.address n s) := by
  obtain ⟨n, hi, hout⟩ | hin := access_cases i s
  · exact .inr (.inr (.inr ⟨n, hi, hout, exec_of_outOfBounds hi hout⟩))
  cases i with
  | ret =>
    cases hs : s.stack with
    | nil => exact .inr (.inl ⟨rfl, rfl, exec_ret_of_nil hs⟩)
    | cons a rest => exact .inl ⟨_, exec_ret_of_cons hs⟩
  | call nnn =>
    obtain hlt | hfull := Nat.lt_or_ge s.stack.length 16
    · exact .inl ⟨_, exec_call_of_lt nnn hlt⟩
    · exact .inr (.inr (.inl ⟨nnn, rfl, hfull, exec_call_of_full nnn hfull⟩))
  | drw x y n => exact .inl ⟨_, exec_drw_of_inBounds x y (hin _ rfl)⟩
  | bcd x => exact .inl ⟨_, exec_bcd_of_inBounds x (hin _ rfl)⟩
  | stRegs x => exact .inl ⟨_, exec_stRegs_of_inBounds (hin _ rfl)⟩
  | ldRegs x => exact .inl ⟨_, exec_ldRegs_of_inBounds (hin _ rfl)⟩
  | _ => exact .inl ⟨_, rfl⟩

/-- The causes an instruction can fault by (`60_exceptions.md` R201). -/
theorem exec_fault_cases {i : Instr} {s : State} {f : Fault} (h : exec i s = .fault f) :
    (i = .ret ∧ s.stack = [] ∧ raiseStack i .underflow s = .fault f) ∨
    (∃ nnn, i = .call nnn ∧ 16 ≤ s.stack.length ∧ raiseStack i .overflow s = .fault f) ∨
    (∃ n, accessLen i = some n ∧ 4096 < s.address + n ∧ raiseBounds i s.address n s = .fault f) := by
  obtain ⟨t, hnext⟩ | ⟨hi, hs, hraise⟩ | ⟨nnn, hi, hs, hraise⟩ | ⟨n, hi, hn, hraise⟩ := exec_cases i s
  · rw [h] at hnext
    cases hnext
  · exact .inl ⟨hi, hs, hraise ▸ h⟩
  · exact .inr (.inl ⟨nnn, hi, hs, hraise ▸ h⟩)
  · exact .inr (.inr ⟨n, hi, hn, hraise ▸ h⟩)

/-- No instruction is refused. -/
theorem exec_next_or_fault (i : Instr) (s : State) : (∃ t, exec i s = .next t) ∨ ∃ f, exec i s = .fault f := by
  obtain hnext | ⟨-, -, hraise⟩ | ⟨nnn, -, -, hraise⟩ | ⟨n, -, -, hraise⟩ := exec_cases i s
  · exact .inl hnext
  all_goals exact .inr ⟨_, hraise⟩

/-- The steps of a machine that is not Faulted which fault. -/
theorem step_fault_cases {s : State} {f : Fault} (hf : ∀ r, s.runState ≠ .faulted r) (h : step s = .fault f) :
    s.runState = .running ∧ s.isEngineTurn = true ∧
    ((4096 < s.pc.toNat + 2 ∧ raiseFetch s.turnTaken = .fault f) ∨
     (s.pc.toNat + 2 ≤ 4096 ∧ decodeWord s.fetchedWord = none ∧
       raiseDecode s.fetchedWord s.turnTaken.advancePc = .fault f) ∨
     (∃ i, s.nextInstr = some i ∧ exec i s.turnTaken.advancePc = .fault f)) := by
  obtain ⟨r, hr⟩ | ⟨e, rest, -, he⟩ | ⟨hr, ht⟩ | ⟨x, hr, ht⟩ := step_kinds s
  · exact absurd hr (hf r)
  · rw [step_event hf he] at h
    cases h
  · refine ⟨hr, ht, ?_⟩
    obtain hb | hb := Nat.lt_or_ge 4096 (s.pc.toNat + 2)
    · exact .inl ⟨hb, step_of_fetch_out_of_bounds hr ht hb ▸ h⟩
    · cases hw : decodeWord s.fetchedWord with
      | none => exact .inr (.inl ⟨hb, rfl, step_of_illegal_word hr ht hb hw ▸ h⟩)
      | some i =>
        have hi := (nextInstr_eq_some_iff s i).mpr ⟨hr, ht, hb, hw⟩
        exact .inr (.inr ⟨i, hi, step_of_nextInstr hi ▸ h⟩)
  · rw [step_awaitingKey hr ht] at h
    cases h

/-- The record of a fault inside an instruction names its address and its word. -/
theorem record_of_exec_fault {i : Instr} {s : State} {f : Fault} (hi : s.nextInstr = some i)
    (h : exec i s.turnTaken.advancePc = .fault f) :
    f.record.ipc = s.pc ∧ f.record.word = s.fetchedWord ∧
      f.final = s.turnTaken.advancePc.setRun (.faulted f.record) := by
  obtain ⟨-, -, -, hw⟩ := (nextInstr_eq_some_iff s i).mp hi
  have hword : encodeWord i = s.fetchedWord := encodeWord_of_decodeWord hw
  have hipc : s.turnTaken.advancePc.pc - 2 = s.pc := BitVec.add_sub_cancel _ _
  obtain ⟨-, -, hraise⟩ | ⟨nnn, -, -, hraise⟩ | ⟨n, -, -, hraise⟩ := exec_fault_cases h
  all_goals
    obtain ⟨hrecord, hfinal⟩ := fault_of_raise hraise
    rw [hfinal, hrecord]
    exact ⟨hipc, hword, rfl⟩

/-- Settles O8: a fault is raised on the state with the turn taken, before or after the increment of `pc`. -/
theorem faultsLeaveAllElseUnchanged : Obligations.FaultsLeaveAllElseUnchanged := by
  unfold Obligations.FaultsLeaveAllElseUnchanged
  intro s f hf h
  obtain ⟨-, -, ⟨hb, hraise⟩ | ⟨hb, -, hraise⟩ | ⟨i, hi, hexec⟩⟩ := step_fault_cases hf h
  · obtain ⟨hrecord, hfinal⟩ := fault_of_raise hraise
    rw [hfinal, hrecord, if_neg (not_le.mpr hb), if_neg (not_le.mpr hb)]
    exact ⟨rfl, rfl, rfl⟩
  · obtain ⟨hrecord, hfinal⟩ := fault_of_raise hraise
    rw [hfinal, hrecord, if_pos hb, if_pos hb]
    exact ⟨rfl, BitVec.add_sub_cancel _ _, rfl⟩
  · obtain ⟨-, -, hb, -⟩ := (nextInstr_eq_some_iff s i).mp hi
    obtain ⟨hipc, hword, hfinal⟩ := record_of_exec_fault hi hexec
    rw [if_pos hb, if_pos hb]
    exact ⟨hfinal, hipc, hword⟩

/-- Settles O9: the fetch fault, the decode fault, and the faults of the instructions, each with its record. -/
theorem onlyTheseCausesFault : Obligations.OnlyTheseCausesFault := by
  unfold Obligations.OnlyTheseCausesFault
  intro s f hf h
  obtain ⟨hr, ht, hcases⟩ := step_fault_cases hf h
  refine ⟨hr, ?_⟩
  have hipc : s.turnTaken.advancePc.pc - 2 = s.pc := BitVec.add_sub_cancel _ _
  obtain ⟨hb, hraise⟩ | ⟨hb, hw, hraise⟩ | ⟨i, hi, hexec⟩ := hcases
  · obtain ⟨hrecord, -⟩ := fault_of_raise hraise
    exact .inl ⟨hb, hrecord⟩
  · obtain ⟨hrecord, -⟩ := fault_of_raise hraise
    rw [hipc] at hrecord
    exact .inr (.inl ⟨by simp [State.fetches, hr, ht, hb], hw, hrecord⟩)
  · obtain ⟨-, -, -, hw⟩ := (nextInstr_eq_some_iff s i).mp hi
    have hword : encodeWord i = s.fetchedWord := encodeWord_of_decodeWord hw
    obtain ⟨rfl, hstack, hraise⟩ | ⟨nnn, rfl, hstack, hraise⟩ | ⟨n, hlen, hout, hraise⟩ := exec_fault_cases hexec
    all_goals
      obtain ⟨hrecord, -⟩ := fault_of_raise hraise
      rw [hipc, hword] at hrecord
    · exact .inr (.inr (.inl ⟨hi, hstack, hrecord⟩))
    · exact .inr (.inr (.inr (.inl ⟨nnn, hi, hstack, hrecord⟩)))
    · refine .inr (.inr (.inr (.inr ?_)))
      cases i with
      | drw x y k => cases hlen; exact .inl ⟨x, y, k, hi, hout, hrecord⟩
      | bcd x => cases hlen; exact .inr (.inl ⟨x, hi, hout, hrecord⟩)
      | stRegs x => cases hlen; exact .inr (.inr ⟨x, .inl hi, hout, hrecord⟩)
      | ldRegs x => cases hlen; exact .inr (.inr ⟨x, .inr hi, hout, hrecord⟩)
      | _ => cases hlen

/-- Settles O10: every kind of step answers, and no instruction is refused. -/
theorem stepIsNeverRefused : Obligations.StepIsNeverRefused := by
  unfold Obligations.StepIsNeverRefused
  intro s
  obtain ⟨r, hr⟩ | ⟨e, rest, hf, he⟩ | ⟨hr, ht⟩ | ⟨x, hr, ht⟩ := step_kinds s
  · exact .inr ⟨_, step_faulted hr⟩
  · exact .inl ⟨_, step_event hf he⟩
  · rw [step_running hr ht, fetchExecute_eq]
    split
    · cases decodeWord s.turnTaken.fetchedWord with
      | some i => exact exec_next_or_fault i _
      | none => exact .inr ⟨_, rfl⟩
    · exact .inr ⟨_, rfl⟩
  · exact .inl ⟨_, step_awaitingKey hr ht⟩

/-! Faulted -/

/-- No event changes a Faulted machine (`60_exceptions.md` R204). -/
theorem applyEvent_of_faulted {s : State} {r : FaultRecord} (hr : s.runState = .faulted r) (e : Event) :
    applyEvent e s = s := by
  unfold applyEvent
  rw [if_pos (isFaulted_of_faulted hr)]

/-- No program is loaded into a Faulted machine (`60_exceptions.md` R204). -/
theorem loadProgram_of_faulted {s : State} {r : FaultRecord} (hr : s.runState = .faulted r) (bytes : List Byte) :
    loadProgram bytes s = .fault (faultOf r s) := by
  unfold loadProgram
  rw [hr]

/-- A Faulted machine presents nothing (`60_exceptions.md` R204). -/
theorem presentBuffer_of_faulted {Intensity : Type} (scale : Nat) (complement : Intensity → Intensity) {s : State}
    {r : FaultRecord} (hr : s.runState = .faulted r) (buf : Nat → Nat → Intensity) :
    presentBuffer scale complement s buf = buf := by
  rw [presentBuffer, if_pos (isFaulted_of_faulted hr)]

/-- Settles O11: every operation but reset looks at the run state first. -/
theorem faultedIsTerminal : Obligations.FaultedIsTerminal := by
  unfold Obligations.FaultedIsTerminal
  intro s r hr
  refine ⟨⟨_, step_faulted hr, faultOf_final r s, faultOf_record r s⟩, applyEvent_of_faulted hr, fun bytes => ?_,
    fun Intensity scale complement buf => presentBuffer_of_faulted scale complement hr buf, rfl⟩
  exact ⟨_, loadProgram_of_faulted hr bytes, faultOf_final r s⟩

/-! The key wait and events -/

/-- Widening a key value to a register (`44_keys_timers.md` R183). -/
theorem zext8_eq_ofNat (k : Nibble) : zext8 k = BitVec.ofNat 8 k.toNat := (BitVec.ofNat_toNat 8 k).symm

/-- Settles O12: the resolution writes the register and the run state, and otherwise only the turn is taken. -/
theorem keyWaitStepResolvesOrWaits : Obligations.KeyWaitStepResolvesOrWaits := by
  unfold Obligations.KeyWaitStepResolvesOrWaits
  intro s x hr ht
  refine ⟨fun k hk hheld => ?_, fun hno => ?_⟩
  · refine ⟨_, step_awaitingKey hr ht, ?_⟩
    rw [resolveKey_of_held (s := s.turnTaken) x hk hheld]
    refine ⟨fun r => ?_, rfl, fun _ => rfl⟩
    rw [State.readV_setRun, State.readV_setV, zext8_eq_ofNat, State.turnTaken_readV]
  · rw [step_awaitingKey hr ht, resolveKey_of_not_held (s := s.turnTaken) x hno]
    rfl

/-- Settles O13: the step is the event on the state with the turn taken, and each event has its frame. -/
theorem eventTurnLeavesTheEngineAlone : Obligations.EventTurnLeavesTheEngineAlone := by
  unfold Obligations.EventTurnLeavesTheEngineAlone
  intro s e rest hf he
  have hfaulted : (s.setSchedule rest).isFaulted = false := (isFaulted_eq_false_iff _).mpr hf
  refine ⟨_, step_event hf he, rfl, applyEvent_frame e (s.setSchedule rest), ?_, ?_, ?_⟩
  · intro a
    rw [mem_applyEvent]
    rfl
  · rintro rfl
    unfold applyEvent
    rw [hfaulted]
    rfl
  · rintro rfl
    unfold applyEvent
    rw [hfaulted]
    exact ⟨Grid.cell_blank, rfl⟩

end Sys2Proof.Machine
end

section
/-! PROOF. Control transfer and registers (`40_flow.md` R102 to R109, `41_load_alu.md`): what each instruction
writes. -/

namespace Sys2Proof.Machine

/-! Control transfer -/

/-- Settles O15: both summands are below 2^12, so the 16-bit sum does not wrap. -/
theorem jumpV0AddsRegisterZero : Obligations.JumpV0AddsRegisterZero := by
  unfold Obligations.JumpV0AddsRegisterZero
  intro nnn s
  refine ⟨_, rfl, ?_, onlyPc_setPc s _⟩
  rw [State.setPc_pc, BitVec.toNat_add, zext16_toNat (by decide), zext16_toNat (by decide)]
  omega

/-- Settles O16: the depth decides between one push and the fault. -/
theorem callPushesReturnAddress : Obligations.CallPushesReturnAddress := by
  unfold Obligations.CallPushesReturnAddress
  intro nnn s
  refine ⟨fun hlt => ?_, fun hfull => exec_call_of_full nnn hfull⟩
  exact ⟨_, exec_call_of_lt nnn hlt, rfl, zext16_toNat (by decide) nnn, rfl, fun _ => rfl⟩

/-- Settles O17: the stack decides between one pop and the fault. -/
theorem returnPopsIntoPc : Obligations.ReturnPopsIntoPc := by
  unfold Obligations.ReturnPopsIntoPc
  refine ⟨fun s a rest hs => ?_, fun s hs => exec_ret_of_nil hs⟩
  exact ⟨_, exec_ret_of_cons hs, rfl, rfl, rfl, fun _ => rfl⟩

theorem onlyPc_skipIf (c : Bool) (s : State) : OnlyPc s (skipIf c s) := by
  rw [skipIf_eq]
  exact onlyPc_setPc s _

theorem pc_skipIf (c : Bool) (s : State) : (skipIf c s).pc = if c then s.pc + 2 else s.pc := by
  rw [skipIf_eq, State.setPc_pc]

/-- Settles O18: each of the four is a skip on its own condition. -/
theorem comparisonSkips : Obligations.ComparisonSkips := by
  unfold Obligations.ComparisonSkips
  intro x y kk s
  refine ⟨_, _, _, _, rfl, rfl, rfl, rfl, ?_, ?_, ?_, ?_, onlyPc_skipIf _ s, onlyPc_skipIf _ s, onlyPc_skipIf _ s,
    onlyPc_skipIf _ s⟩
  · simp [pc_skipIf]
  · simp [pc_skipIf]
  · simp [pc_skipIf]
  · simp [pc_skipIf]

/-- Settles O19: RET pops what CALL pushed. -/
theorem returnUndoesCall : Obligations.ReturnUndoesCall := by
  unfold Obligations.ReturnUndoesCall
  exact fun nnn s hlt => ⟨_, _, exec_call_of_lt nnn hlt, exec_ret_of_cons rfl, rfl⟩

/-! Loads, the ALU and random -/

theorem onlyV_setV (s : State) (x : Nibble) (v : Byte) : OnlyV s (s.setV x v) := ⟨setV_frame s x v, fun _ => rfl⟩

theorem onlyV_setResultFlag (s : State) (x : Nibble) (result flag : Byte) :
    OnlyV s (setResultFlag s x result flag) := ⟨setResultFlag_frame s x result flag, fun _ => rfl⟩

/-- Settles O21: each is one register write, from operands read before it. -/
theorem loadsAndImmediateAdd : Obligations.LoadsAndImmediateAdd := by
  unfold Obligations.LoadsAndImmediateAdd
  intro x y kk s
  refine ⟨_, _, _, rfl, rfl, rfl, fun r => State.readV_setV s x r _, fun r => ?_, fun r => State.readV_setV s x r _,
    onlyV_setV s x _, onlyV_setV s x _, onlyV_setV s x _⟩
  rw [State.readV_setV]
  split
  · exact BitVec.toNat_add _ _
  · rfl

/-- Settles O22: the result and then the flag 0 are written. -/
theorem logicalOperationsClearVF : Obligations.LogicalOperationsClearVF := by
  unfold Obligations.LogicalOperationsClearVF
  intro x y s
  exact ⟨_, _, _, rfl, rfl, rfl, fun r => readV_setResultFlag s x r _ _, fun r => readV_setResultFlag s x r _ _,
    fun r => readV_setResultFlag s x r _ _, onlyV_setResultFlag s x _ _, onlyV_setResultFlag s x _ _,
    onlyV_setResultFlag s x _ _⟩

section

variable (s : State) (x : Nibble) (result flag : Byte)

theorem setResultFlag_flag : (setResultFlag s x result flag).readV 0xF = flag :=
  (readV_setResultFlag s x vf result flag).trans (if_pos rfl)

theorem setResultFlag_result (hx : x ≠ 0xF) : (setResultFlag s x result flag).readV x = result :=
  (readV_setResultFlag s x x result flag).trans ((if_neg hx).trans (if_pos rfl))

theorem setResultFlag_other (r : Nibble) (hx : r ≠ x) (hf : r ≠ 0xF) :
    (setResultFlag s x result flag).readV r = s.readV r :=
  (readV_setResultFlag s x r result flag).trans ((if_neg hf).trans (if_neg hx))

end

/-- A flag is 1 exactly on its condition. -/
theorem flagByte_decide (p : Prop) [Decidable p] : flagByte (decide p) = if p then 1 else 0 := by
  by_cases h : p <;> simp [flagByte, h]

/-- Settles O23: the result is the sum, the flag the carry. -/
theorem addSetsSumAndCarry : Obligations.AddSetsSumAndCarry := by
  unfold Obligations.AddSetsSumAndCarry
  intro x y s
  refine ⟨_, rfl, onlyV_setResultFlag s x _ _, ?_, fun hx => ?_, setResultFlag_other s x _ _⟩
  · rw [setResultFlag_flag, carryFlag, flagByte_decide]
  · rw [setResultFlag_result _ _ _ _ hx, BitVec.toNat_add]

/-- The 8-bit difference as a number (`41_load_alu.md` R127). -/
theorem toNat_sub_byte (a b : Byte) : (a - b).toNat = (a.toNat + 256 - b.toNat) % 256 := by
  bv_omega

/-- Settles O24: the result is the difference, the flag not-borrow, and SUBN is SUB with the operands exchanged. -/
theorem subtractionsSetDifferenceAndNotBorrow : Obligations.SubtractionsSetDifferenceAndNotBorrow := by
  unfold Obligations.SubtractionsSetDifferenceAndNotBorrow
  intro x y s
  refine ⟨_, _, rfl, rfl, onlyV_setResultFlag s x _ _, onlyV_setResultFlag s x _ _, ?_, ?_, fun hx => ⟨?_, ?_⟩,
    fun r hr hf => ⟨setResultFlag_other s x _ _ r hr hf, setResultFlag_other s x _ _ r hr hf⟩⟩
  · rw [setResultFlag_flag, notBorrowFlag, flagByte_decide]
  · rw [setResultFlag_flag, notBorrowFlag, flagByte_decide]
  · rw [setResultFlag_result _ _ _ _ hx, toNat_sub_byte]
  · rw [setResultFlag_result _ _ _ _ hx, toNat_sub_byte]

/-- A bit of a byte as a flag. -/
theorem toNat_flagByte_getLsbD (b : Byte) (j : Nat) : (flagByte (b.getLsbD j)).toNat = b.toNat / 2 ^ j % 2 := by
  rw [BitVec.getLsbD, Nat.testBit_eq_decide_div_mod_eq, flagByte_decide]
  split
  next h => exact h.symm
  next h => exact (Nat.mod_two_ne_one.mp h).symm

/-- Settles O25: the result is V[y] shifted by one, the flag the bit shifted out. -/
theorem shiftsMoveVyByOne : Obligations.ShiftsMoveVyByOne := by
  unfold Obligations.ShiftsMoveVyByOne
  intro x y s
  refine ⟨_, _, rfl, rfl, onlyV_setResultFlag s x _ _, onlyV_setResultFlag s x _ _, ?_, ?_, fun hx => ⟨?_, ?_⟩,
    fun r hr hf => ⟨setResultFlag_other s x _ _ r hr hf, setResultFlag_other s x _ _ r hr hf⟩⟩
  · rw [setResultFlag_flag, lowBitFlag, toNat_flagByte_getLsbD, pow_zero, Nat.div_one]
  · rw [setResultFlag_flag, highBitFlag, toNat_flagByte_getLsbD]
    omega
  · rw [setResultFlag_result _ _ _ _ hx, BitVec.toNat_ushiftRight, Nat.shiftRight_one]
  · rw [setResultFlag_result _ _ _ _ hx, BitVec.toNat_shiftLeft, Nat.shiftLeft_eq, pow_one]

/-- Settles O26: a bit that is 0 in the mask is 0 in the conjunction. -/
theorem randomByteIsMasked : Obligations.RandomByteIsMasked := by
  unfold Obligations.RandomByteIsMasked
  intro x kk s
  refine ⟨_, rfl, fun r => ?_, fun j hj => ?_, rfl, rfl, fun _ => rfl⟩
  · rw [State.readV_takeDraw, State.readV_setV]
  · rw [State.readV_takeDraw, State.readV_setV, if_pos rfl, BitVec.getLsbD_and, hj, Bool.and_false]

theorem eq_of_readV_setV_ne {s : State} {x r : Nibble} {v : Byte} (h : (s.setV x v).readV r ≠ s.readV r) :
    r = x := by
  by_contra hr
  exact h ((State.readV_setV s x r v).trans (if_neg hr))

theorem eq_of_readV_setResultFlag_ne {s : State} {x r : Nibble} {result flag : Byte}
    (h : (setResultFlag s x result flag).readV r ≠ s.readV r) : r = x ∨ r = 0xF := by
  by_contra hr
  obtain ⟨hx, hf⟩ := not_or.mp hr
  exact h (setResultFlag_other s x result flag r hx hf)

/-- Settles O27: registers are written as one destination, as a destination and then VF, as VF, or as a block. -/
theorem onlyDestinationsAndFlagChange : Obligations.OnlyDestinationsAndFlagChange := by
  unfold Obligations.OnlyDestinationsAndFlagChange
  intro i s t r h hne
  have hframe := frame_of_exec h
  cases i with
  | ldImm | addImm | mov | ldVxDt | rnd =>
    cases h
    exact .inl (beq_iff_eq.mpr (eq_of_readV_setV_ne hne))
  | or | and | xor | add | sub | shr | subn | shl =>
    cases h
    exact (eq_of_readV_setResultFlag_ne hne).imp beq_iff_eq.mpr fun hf => ⟨hf, rfl⟩
  | drw x y n =>
    rw [exec_drw_of_inBounds x y (inBounds_of_exec rfl h)] at h
    cases h
    exact .inr ⟨eq_of_readV_setV_ne (s := s.setDisplay _ _) hne, rfl⟩
  | ldRegs x =>
    rw [exec_ldRegs_of_inBounds (inBounds_of_exec rfl h)] at h
    cases h
    rw [readV_setRegsFrom_readBytes] at hne
    by_contra hno
    exact hne (if_neg fun hle => hno (.inl (decide_eq_true hle)))
  | _ =>
    rw [hframe] at hne
    exact absurd rfl hne

end Sys2Proof.Machine
end

section
/-! PROOF. Index register and memory (`42_index_memory.md`), the key and timer instructions (`44_keys_timers.md`). -/

namespace Sys2Proof.Machine

/-! Index register and memory -/

/-- The glyph of every register value lies below 2^16 (`42_index_memory.md` R142). -/
theorem toNat_glyphAddress (v : Byte) : (glyphAddress v).toNat = 0x50 + v.toNat * 5 := by
  have hv : 0x50 + v.toNat * 5 < 65536 := by omega
  exact (BitVec.toNat_ofNat _ _).trans (Nat.mod_eq_of_lt hv)

/-- Settles O28: each is one update of `I`, and the glyph address stays below 2^16. -/
theorem indexRegisterWrites : Obligations.IndexRegisterWrites := by
  unfold Obligations.IndexRegisterWrites
  intro nnn x s
  refine ⟨_, _, _, rfl, rfl, rfl, zext16_toNat (by decide) nnn, ?_, toNat_glyphAddress _, rfl, rfl, rfl,
    fun _ => rfl, fun _ => rfl, fun _ => rfl⟩
  rw [State.setI_I, BitVec.toNat_add, zext16_toNat (by decide)]

/-- Byte `j` of what is written from `a` upward. -/
theorem readByte_writeBytes_offset (m : Memory) (a j : Nat) {vs : List Byte} (hj : j < vs.length) :
    (m.writeBytes a vs).readByte (a + j) = vs.getD j 0 := by
  rw [Memory.readByte_writeBytes, if_pos (by omega), Nat.add_sub_cancel_left]

/-- A write of bytes leaves every byte outside it. -/
theorem sameMemoryOutside_of_writeBytes {s t : State} {a : Nat} {vs : List Byte}
    (h : t.mem = s.mem.writeBytes a vs) : SameMemoryOutside a vs.length s t := by
  intro b hb
  rw [h, Memory.readByte_writeBytes, if_neg (by omega)]

/-- Settles O29: the three digits are below 10, and they are the bytes written at `I`. -/
theorem bcdStoresThreeDigits : Obligations.BcdStoresThreeDigits := by
  unfold Obligations.BcdStoresThreeDigits
  intro x s hin
  have hdigit : ∀ j, j < 3 → ((s.mem.writeBytes s.address (bcdDigits (s.readV x))).readByte (s.address + j)) =
      (bcdDigits (s.readV x)).getD j 0 := fun j hj => readByte_writeBytes_offset _ _ j hj
  have hsmall : ∀ k, k ≤ 255 → (BitVec.ofNat 8 k).toNat = k := fun k hk =>
    Nat.mod_eq_of_lt (Nat.lt_succ_of_le hk)
  have hv : (s.readV x).toNat < 256 := (s.readV x).isLt
  refine ⟨_, exec_bcd_of_inBounds x hin, ?_, ?_, ?_, sameMemoryOutside_of_writeBytes (vs := bcdDigits _) rfl, rfl⟩
  · exact (congrArg _ (hdigit 0 (by decide))).trans (hsmall _ (by omega))
  · exact (congrArg _ (hdigit 1 (by decide))).trans (hsmall _ (by omega))
  · exact (congrArg _ (hdigit 2 (by decide))).trans (hsmall _ (by omega))

/-- Byte `j` of the block of registers is register `j`. -/
theorem regBlock_getD (s : State) {x j : Nibble} (hj : j.toNat ≤ x.toNat) :
    (regBlock s x).getD j.toNat 0 = s.readV j := by
  have hlt : j.toNat < blockLen x := Nat.lt_succ_of_le hj
  rw [regBlock, regsFrom_getD s _ _ _ hlt, Nat.zero_add, BitVec.ofNat_toNat, BitVec.setWidth_eq]

/-- What LD [I], Vx leaves at `I + j`. -/
theorem readByte_regBlock (s : State) {x j : Nibble} (hj : j.toNat ≤ x.toNat) :
    (s.mem.writeBytes s.address (regBlock s x)).readByte (s.address + j.toNat) = s.readV j := by
  rw [readByte_writeBytes_offset, regBlock_getD s hj]
  rw [regBlock_length]
  exact Nat.lt_succ_of_le hj

/-- Settles O30: the block of registers is written at `I`, and `I + x + 1` is at most 4096. -/
theorem blockStoreWritesAndAdvances : Obligations.BlockStoreWritesAndAdvances := by
  unfold Obligations.BlockStoreWritesAndAdvances
  intro x s hin
  refine ⟨_, exec_stRegs_of_inBounds hin, fun j hj => readByte_regBlock s hj, ?_, ?_, rfl⟩
  · have hlen : (regBlock s x).length = x.toNat + 1 := regBlock_length s x
    exact hlen ▸ sameMemoryOutside_of_writeBytes rfl
  · exact Nat.mod_eq_of_lt (by rw [blockLen]; omega)

/-- Settles O33: the load reads at the old `I` what the store wrote there. -/
theorem storeThenLoadRestoresRegisters : Obligations.StoreThenLoadRestoresRegisters := by
  unfold Obligations.StoreThenLoadRestoresRegisters
  intro x s hin
  refine ⟨_, exec_stRegs_of_inBounds hin, fun u hmem hI => ?_⟩
  have haddress : u.address = s.address := congrArg BitVec.toNat hI
  refine ⟨_, exec_ldRegs_of_inBounds (haddress.symm ▸ hin), fun r hr => ?_⟩
  rw [readV_setRegsFrom_readBytes, if_pos hr, haddress, hmem]
  exact readByte_regBlock s hr

/-- Settles O32: the whole access is checked before any byte is read or written. -/
theorem outOfBoundsAccessFaults : Obligations.OutOfBoundsAccessFaults := by
  unfold Obligations.OutOfBoundsAccessFaults
  intro i s n hi hout
  have hlen : accessLen i = some n := by
    obtain ⟨x, y, k, rfl, rfl⟩ | ⟨x, rfl, rfl⟩ | ⟨x, rfl | rfl, rfl⟩ := hi <;> rfl
  exact exec_of_outOfBounds hlen hout

/-! Keys and timers -/

/-- A value up to 15 names the key of that number (`44_keys_timers.md` R180). -/
theorem keyNamedHeld_of_key {s : State} {v : Byte} {k : Nibble} (hk : v.toNat = k.toNat) :
    keyNamedHeld s v = s.pressed.getLsbD k.toNat := by
  have hle : k.toNat ≤ 15 := Nat.le_of_lt_succ k.isLt
  rw [keyNamedHeld, hk, decide_eq_true hle, Bool.true_and, State.keyHeld]

/-- A value above 15 names no key (`44_keys_timers.md` R180). -/
theorem keyNamedHeld_of_gt {s : State} {v : Byte} (hgt : 15 < v.toNat) : keyNamedHeld s v = false := by
  rw [keyNamedHeld, decide_eq_false (not_le.mpr hgt), Bool.false_and]

/-- Settles O41: the two skip on a condition and its negation, which is false for a value above 15. -/
theorem keySkipsAreComplementary : Obligations.KeySkipsAreComplementary := by
  unfold Obligations.KeySkipsAreComplementary
  intro x s
  refine ⟨_, _, rfl, rfl, onlyPc_skipIf _ s, onlyPc_skipIf _ s, fun k hk hheld => ?_, fun k hk hheld => ?_,
    fun hgt => ?_⟩
  all_goals rw [pc_skipIf, pc_skipIf]
  · rw [keyNamedHeld_of_key hk, hheld]
    exact ⟨rfl, rfl⟩
  · rw [keyNamedHeld_of_key hk, hheld]
    exact ⟨rfl, rfl⟩
  · rw [keyNamedHeld_of_gt hgt]
    exact ⟨rfl, rfl⟩

/-- Settles O43: each copy is one register or timer write. -/
theorem timerCopies : Obligations.TimerCopies := by
  unfold Obligations.TimerCopies
  intro x s
  refine ⟨_, _, _, rfl, rfl, rfl, fun r => State.readV_setV s x r _, onlyV_setV s x _, rfl, rfl, rfl, rfl, ?_,
    fun _ => rfl, fun _ => rfl⟩
  exact bne_iff_ne

end Sys2Proof.Machine
end

section
/-! PROOF. Display (`43_display.md`): CLS, DRW, the `dirty` bits and the presentation. -/

namespace Sys2Proof.Machine

/-- Settles O35: the pixels become the blank grid, `dirty` is exclusive-ored with the old pixels. -/
theorem clearScreenTurnsAllPixelsOff : Obligations.ClearScreenTurnsAllPixelsOff := by
  unfold Obligations.ClearScreenTurnsAllPixelsOff
  exact fun s => ⟨_, rfl, Grid.cell_blank, Grid.cell_xor s.dirty s.px, rfl, fun _ => rfl⟩

/-! DRW -/

/-- A set bit of the sprite of DRW lands on a cell, as the draw computes it. -/
def covers (s : State) (x y n : Nibble) (r c : Nat) : Bool :=
  spriteLands (s.readV x).toNat (s.readV y).toNat (s.mem.readBytes s.address n.toNat) r c

theorem covers_iff (s : State) (x y n : Nibble) (r c : Nat) :
    covers s x y n r c = true ↔ SpriteCovers s x y n r c := by
  rw [covers, spriteLands_iff, SpriteCovers]
  constructor
  · rintro ⟨hr, hlow, hhigh, j, hj, rfl, hbit⟩
    exact ⟨hr, Nat.mod_lt _ (by decide), hlow, hhigh, j, hj, rfl, hbit⟩
  · rintro ⟨hr, -, hrest⟩
    exact ⟨hr, hrest⟩

theorem covers_eq_false_iff (s : State) (x y n : Nibble) (r c : Nat) :
    covers s x y n r c = false ↔ ¬ SpriteCovers s x y n r c := by
  rw [← covers_iff, Bool.not_eq_true]

section

variable (s : State) (x y n : Nibble)

/-- Everything a draw does to the display (`43_display.md` R161, R164). -/
theorem drawn_spec :
    (∀ r c, (drawn s x y n).px.cell r c = (s.px.cell r c ^^ covers s x y n r c)) ∧
    (∀ r c, (drawn s x y n).dirty.cell r c = (s.dirty.cell r c ^^ covers s x y n r c)) ∧
    ((drawn s x y n).coll = true ↔ ∃ r c, covers s x y n r c = true ∧ s.px.cell r c = true) := by
  obtain ⟨hpx, hdirty, hcoll⟩ := drawSprite_spec (s.readV x).toNat (s.mem.readBytes s.address n.toNat)
    (s.readV y).toNat ⟨s.px, s.dirty, false⟩
  exact ⟨hpx, hdirty, hcoll.trans (or_iff_right Bool.false_ne_true)⟩

theorem afterDraw_px_cell (r c : Nat) :
    (afterDraw s x y n).px.cell r c = (s.px.cell r c ^^ covers s x y n r c) := by
  obtain ⟨hpx, -, -⟩ := drawn_spec s x y n
  exact hpx r c

theorem afterDraw_dirty_cell (r c : Nat) :
    (afterDraw s x y n).dirty.cell r c = (s.dirty.cell r c ^^ covers s x y n r c) := by
  obtain ⟨-, hdirty, -⟩ := drawn_spec s x y n
  exact hdirty r c

theorem drawn_coll_iff :
    (drawn s x y n).coll = true ↔ ∃ r c, SpriteCovers s x y n r c ∧ s.px.cell r c = true := by
  obtain ⟨-, -, hcoll⟩ := drawn_spec s x y n
  simp only [hcoll, covers_iff]

theorem readV_afterDraw (r : Nibble) :
    (afterDraw s x y n).readV r = if r = 0xF then flagByte (drawn s x y n).coll else s.readV r :=
  State.readV_setV _ vf r _

end

/-- VF is 1 after a draw with a collision. -/
theorem flag_afterDraw_of_collision {s : State} {x y n : Nibble}
    (h : ∃ r c, SpriteCovers s x y n r c ∧ s.px.cell r c = true) : (afterDraw s x y n).readV 0xF = 1 := by
  rw [readV_afterDraw, if_pos rfl, (drawn_coll_iff s x y n).mpr h]
  rfl

/-- VF is 0 after a draw without one. -/
theorem flag_afterDraw_of_no_collision {s : State} {x y n : Nibble}
    (h : ∀ r c, SpriteCovers s x y n r c → s.px.cell r c = false) : (afterDraw s x y n).readV 0xF = 0 := by
  have hcoll : (drawn s x y n).coll = false := by
    rw [Bool.eq_false_iff, ne_eq, drawn_coll_iff]
    rintro ⟨r, c, hcovers, hon⟩
    exact absurd ((h r c hcovers).symm.trans hon) Bool.false_ne_true
  rw [readV_afterDraw, if_pos rfl, hcoll]
  rfl

/-- Settles O36: a cell changes exactly where the sprite covers it, and VF says whether one of those was on. -/
theorem drawCompositesSprite : Obligations.DrawCompositesSprite := by
  unfold Obligations.DrawCompositesSprite
  intro x y n s hin
  refine ⟨_, exec_drw_of_inBounds x y hin, fun r c hcovers => ?_, fun r c hno => ?_,
    flag_afterDraw_of_collision, flag_afterDraw_of_no_collision, fun r hr => ?_, rfl, rfl, fun _ => rfl⟩
  · rw [afterDraw_px_cell, afterDraw_dirty_cell, (covers_iff s x y n r c).mpr hcovers]
    exact ⟨Bool.xor_true _, Bool.xor_true _⟩
  · rw [afterDraw_px_cell, afterDraw_dirty_cell, (covers_eq_false_iff s x y n r c).mpr hno]
    exact ⟨Bool.xor_false _, Bool.xor_false _⟩
  · rw [readV_afterDraw, if_neg hr]

/-- Settles O37: the second draw covers the same cells, as no register but VF has changed. -/
theorem drawingTwiceRestoresTheDisplay : Obligations.DrawingTwiceRestoresTheDisplay := by
  unfold Obligations.DrawingTwiceRestoresTheDisplay
  intro x y n s hx hy hin
  have hvx : (afterDraw s x y n).readV x = s.readV x := by rw [readV_afterDraw, if_neg hx]
  have hvy : (afterDraw s x y n).readV y = s.readV y := by rw [readV_afterDraw, if_neg hy]
  have hsame : ∀ r c, covers (afterDraw s x y n) x y n r c = covers s x y n r c := fun r c => by
    rw [covers, hvx, hvy]
    rfl
  have hinverted : ∀ r c, SpriteCovers (afterDraw s x y n) x y n r c →
      SpriteCovers s x y n r c ∧ (afterDraw s x y n).px.cell r c = !s.px.cell r c := fun r c hc => by
    rw [← covers_iff, hsame] at hc
    rw [← covers_iff, afterDraw_px_cell, hc]
    exact ⟨rfl, Bool.xor_true _⟩
  refine ⟨_, _, exec_drw_of_inBounds x y hin, exec_drw_of_inBounds (s := afterDraw s x y n) x y hin,
    Grid.ext_cell fun r c _ _ => ?_, Grid.ext_cell fun r c _ _ => ?_, ?_, fun hon => ?_⟩
  · rw [afterDraw_px_cell, afterDraw_px_cell, hsame, Bool.xor_assoc, Bool.xor_self, Bool.xor_false]
  · rw [afterDraw_dirty_cell, afterDraw_dirty_cell, hsame, Bool.xor_assoc, Bool.xor_self, Bool.xor_false]
  · rintro ⟨r, c, hc, hoff⟩
    have hc' : SpriteCovers (afterDraw s x y n) x y n r c := by rwa [← covers_iff, hsame, covers_iff]
    obtain ⟨-, hpx⟩ := hinverted r c hc'
    exact flag_afterDraw_of_collision ⟨r, c, hc', by rw [hpx, hoff]; rfl⟩
  · refine flag_afterDraw_of_no_collision fun r c hc' => ?_
    obtain ⟨hc, hpx⟩ := hinverted r c hc'
    rw [hpx, hon r c hc]
    rfl

/-! The `dirty` bits -/

/-- Everything an instruction does to the display. -/
theorem display_of_exec {i : Instr} {s t : State} (h : exec i s = .next t) :
    (t.px = s.px ∧ t.dirty = s.dirty) ∨
    (i = .cls ∧ t.px = Grid.blank ∧ t.dirty = s.dirty.xor s.px) ∨
    (∃ x y n, i = .drw x y n ∧ t = afterDraw s x y n) := by
  have hframe := frame_of_exec h
  cases i with
  | cls => cases h; exact .inr (.inl ⟨rfl, rfl, rfl⟩)
  | drw x y n =>
    rw [exec_drw_of_inBounds x y (inBounds_of_exec rfl h)] at h
    cases h
    exact .inr (.inr ⟨x, y, n, rfl, rfl⟩)
  | _ => rw [hframe]; exact .inl ⟨rfl, rfl⟩

/-- An instruction changes a pixel and its `dirty` bit together (`10_state.md` R35). -/
theorem px_xor_dirty_of_exec {i : Instr} {s t : State} (h : exec i s = .next t) (r c : Nat) :
    (t.px.cell r c ^^ t.dirty.cell r c) = (s.px.cell r c ^^ s.dirty.cell r c) := by
  obtain ⟨hpx, hdirty⟩ | ⟨-, hpx, hdirty⟩ | ⟨x, y, n, -, rfl⟩ := display_of_exec h
  · rw [hpx, hdirty]
  · rw [hpx, hdirty, Grid.cell_blank, Grid.cell_xor, Bool.false_xor, Bool.xor_comm]
  · rw [afterDraw_px_cell, afterDraw_dirty_cell]
    cases covers s x y n r c <;> simp

/-- Of the events only Present touches the display, and it clears `dirty`. -/
theorem dirty_applyEvent (e : Event) {s : State} (hs : s.isFaulted = false) :
    (applyEvent e s).dirty = if e = .present then Grid.blank else s.dirty := by
  unfold applyEvent
  rw [hs]
  cases e <;> rfl

theorem head_schedule_of_engineTurn {s : State} (ht : s.isEngineTurn = true) (e : Event) :
    s.schedule.head? ≠ some (.event e) := by
  intro h
  obtain ⟨rest, hsched⟩ := List.head?_eq_some_iff.mp h
  simp [State.isEngineTurn, hsched] at ht

/-- Settles O38: an event leaves every pixel, the end of a wait the whole display, and an instruction changes a pixel
and its `dirty` bit together. -/
theorem dirtyTracksChangedPixels : Obligations.DirtyTracksChangedPixels := by
  unfold Obligations.DirtyTracksChangedPixels
  intro s t h
  obtain ⟨e, rest, hsched, hs, rfl⟩ | ⟨x, -, ht, rfl⟩ | ⟨i, hi, hexec⟩ := step_next_cases h
  · rw [px_applyEvent, dirty_applyEvent e (s := s.setSchedule rest) hs, hsched]
    refine ⟨fun hne r c => ?_, fun heq => ?_, fun hne => absurd rfl hne⟩
    · rw [if_neg (by rintro rfl; exact hne rfl)]
      rfl
    · cases heq
      exact ⟨rfl, Grid.cell_blank⟩
  · rw [resolveKey_frame]
    exact ⟨fun _ _ _ => rfl, fun hp => absurd hp (head_schedule_of_engineTurn ht _), fun hne => absurd rfl hne⟩
  · obtain ⟨-, ht, -, -⟩ := (nextInstr_eq_some_iff s i).mp hi
    refine ⟨fun _ r c => px_xor_dirty_of_exec (s := s.turnTaken.advancePc) hexec r c,
      fun hp => absurd hp (head_schedule_of_engineTurn ht _), fun hne => ?_⟩
    obtain ⟨hpx, -⟩ | ⟨rfl, -, -⟩ | ⟨x, y, n, rfl, -⟩ := display_of_exec hexec
    · exact absurd hpx hne
    · exact .inl hi
    · exact .inr ⟨x, y, n, hi⟩

/-! Presentation -/

section

variable {Intensity : Type} {scale : Nat} (hscale : 1 ≤ scale) (complement : Intensity → Intensity)
include hscale

/-- A place of the buffer lies in the block of the cell that division by the scale gives. -/
theorem invertBlock_apply (r c : Nat) (buf : Nat → Nat → Intensity) (row col : Nat) :
    invertBlock scale complement r c buf row col =
      if row / scale = r ∧ col / scale = c then complement (buf (r * scale) (c * scale)) else buf row col := by
  have hblock : ∀ p q, p / scale = q ↔ q * scale ≤ p ∧ p < q * scale + scale := fun p q => by
    rw [Nat.div_eq_iff (by omega)]
    omega
  simp only [invertBlock, hblock, and_assoc]

/-- Every place of the buffer after one cell. -/
theorem presentCell_apply (changed : Bool) (r c : Nat) (buf : Nat → Nat → Intensity) (row col : Nat) :
    (if changed = true then invertBlock scale complement r c buf else buf) row col =
      if row / scale = r ∧ col / scale = c ∧ changed = true then complement (buf (r * scale) (c * scale))
      else buf row col := by
  cases changed <;> simp [invertBlock_apply hscale]

/-- Every place of the buffer after the changed cells of one row: the columns differ, so a block is inverted once and
its first pixel is still the old one then. -/
theorem presentRow_apply (dirty : Grid) (r row col : Nat) : ∀ (cs : List Nat) (buf : Nat → Nat → Intensity), cs.Nodup →
    presentRow scale complement dirty r cs buf row col =
      if row / scale = r ∧ col / scale ∈ cs ∧ dirty.cell r (col / scale) = true then
        complement (buf (r * scale) (col / scale * scale))
      else buf row col := by
  intro cs
  induction cs with
  | nil => simp [presentRow]
  | cons c cs ih =>
    intro buf hnodup
    obtain ⟨hc, hcs⟩ := List.nodup_cons.mp hnodup
    rw [presentRow, ih _ hcs, presentCell_apply hscale, presentCell_apply hscale, Nat.mul_div_cancel _ hscale,
      Nat.mul_div_cancel _ hscale]
    by_cases hcol : col / scale = c
    · simp [hcol, hc]
    · simp [hcol]

/-- Every place of the buffer after the changed cells of the given rows. -/
theorem presentRows_apply (dirty : Grid) (row col : Nat) : ∀ (rs : List Nat) (buf : Nat → Nat → Intensity), rs.Nodup →
    presentRows scale complement dirty rs buf row col =
      if row / scale ∈ rs ∧ col / scale < 64 ∧ dirty.cell (row / scale) (col / scale) = true then
        complement (buf (row / scale * scale) (col / scale * scale))
      else buf row col := by
  intro rs
  induction rs with
  | nil => simp [presentRows]
  | cons r rs ih =>
    intro buf hnodup
    obtain ⟨hr, hrs⟩ := List.nodup_cons.mp hnodup
    rw [presentRows, ih _ hrs, presentRow_apply hscale complement dirty r _ _ _ _ List.nodup_range,
      presentRow_apply hscale complement dirty r _ _ _ _ List.nodup_range, Nat.mul_div_cancel _ hscale]
    by_cases hrow : row / scale = r
    · simp [hrow, hr]
    · simp [hrow]

end

/-- Every place of the host's buffer after a presentation (`43_display.md` R168). -/
theorem presentBuffer_apply {Intensity : Type} {scale : Nat} (hscale : 1 ≤ scale)
    (complement : Intensity → Intensity) {s : State} (hf : ∀ r, s.runState ≠ .faulted r)
    (buf : Nat → Nat → Intensity) (row col : Nat) :
    presentBuffer scale complement s buf row col =
      if row / scale < 32 ∧ col / scale < 64 ∧ s.dirty.cell (row / scale) (col / scale) = true then
        complement (buf (row / scale * scale) (col / scale * scale))
      else buf row col := by
  rw [presentBuffer, (isFaulted_eq_false_iff s).mpr hf, if_neg Bool.false_ne_true,
    presentRows_apply hscale complement s.dirty row col _ buf List.nodup_range]
  simp only [List.mem_range]

/-- Settles O40: the block of a place is found by division by the scale. -/
theorem presentInvertsChangedBlocks : Obligations.PresentInvertsChangedBlocks := by
  unfold Obligations.PresentInvertsChangedBlocks
  intro Intensity scale complement s buf hscale hf
  refine ⟨fun r c dy dx hr hc hdy hdx => ?_, fun row col hout => ?_⟩
  · have hblock : ∀ q d, d < scale → (q * scale + d) / scale = q := fun q d hd => by
      rw [Nat.add_comm, Nat.add_mul_div_right _ _ hscale, Nat.div_eq_of_lt hd, Nat.zero_add]
    rw [presentBuffer_apply hscale complement hf, hblock r dy hdy, hblock c dx hdx]
    simp only [hr, hc, true_and]
  · have houtside : ¬ (row / scale < 32 ∧ col / scale < 64) := by
      rw [Nat.div_lt_iff_lt_mul hscale, Nat.div_lt_iff_lt_mul hscale]
      omega
    rw [presentBuffer_apply hscale complement hf, if_neg fun ⟨hrow, hcol, _⟩ => houtside ⟨hrow, hcol⟩]

end Sys2Proof.Machine
end

section
/-! PROOF. What acts on the machine from outside (`44_keys_timers.md` R186 to R188, `70_reset_and_hazards.md` R230,
R236): ticks, key events, program load and reset. -/

namespace Sys2Proof.Machine

/-! Ticks -/

/-- One tick takes a timer down by 1, not below 0 (`44_keys_timers.md` R188). -/
theorem tickTimer_toNat (v : Byte) : (tickTimer v).toNat = v.toNat - 1 := by
  unfold tickTimer
  split
  · bv_omega
  · omega

/-- A tick's turn takes both timers down by 1. -/
theorem step_tick {s : State} {rest : List Turn} (hf : ∀ r, s.runState ≠ .faulted r)
    (h : s.schedule = .event .tick :: rest) : step s = .next (tick (s.setSchedule rest)) := by
  rw [step_event hf h, applyEvent, (isFaulted_eq_false_iff (s.setSchedule rest)).mpr hf, if_neg Bool.false_ne_true]

/-- A run of one more step goes on from the next state. -/
theorem run_succ_of_step {s u : State} (h : step s = .next u) (k : Nat) :
    Host.Core.run Sys2Proof.core (k + 1) s = Host.Core.run Sys2Proof.core k u := by
  have hcore : Sys2Proof.core.step s = .next u := h
  simp only [Host.Core.run, hcore]

/-- Settles O44: by induction on the number of ticks, one turn of the schedule each. -/
theorem ticksSaturateAtZero : Obligations.TicksSaturateAtZero := by
  unfold Obligations.TicksSaturateAtZero
  intro k
  induction k with
  | zero =>
    intro s rest _ hsched
    cases s
    cases hsched
    exact ⟨_, rfl, rfl, rfl, rfl⟩
  | succ k ih =>
    intro s rest hf hsched
    obtain ⟨t, hrun, hDT, hST, hframe⟩ :=
      ih (tick (s.setSchedule (List.replicate k (.event .tick) ++ rest))) rest hf rfl
    have hfall : ∀ v : Byte, (tickTimer v).toNat - k = v.toNat - (k + 1) := fun v => by
      rw [tickTimer_toNat, Nat.sub_sub, Nat.add_comm]
    exact ⟨t, (run_succ_of_step (step_tick hf hsched) k).trans hrun, hDT.trans (hfall s.DT), hST.trans (hfall s.ST),
      hframe⟩

/-! Key events -/

/-- The bit of one key among the sixteen. -/
theorem getLsbD_twoPow_key (j k : Nibble) : (BitVec.twoPow 16 k.toNat).getLsbD j.toNat = (j == k) := by
  have hk : k.toNat < 16 := k.isLt
  rw [BitVec.getLsbD_twoPow, decide_eq_true hk, Bool.true_and, Bool.eq_iff_iff, decide_eq_true_iff, beq_iff_eq,
    ← BitVec.toNat_inj, eq_comm]

/-- Settles O46: key-down sets one bit of `pressed`, key-up clears it. -/
theorem keyEventsUpdateKeyboard : Obligations.KeyEventsUpdateKeyboard := by
  unfold Obligations.KeyEventsUpdateKeyboard
  intro s k hf
  have hdown : applyEvent (.keyDown k) s = keyDown k s := by
    rw [applyEvent, (isFaulted_eq_false_iff s).mpr hf, if_neg Bool.false_ne_true]
  have hup : applyEvent (.keyUp k) s = keyUp k s := by
    rw [applyEvent, (isFaulted_eq_false_iff s).mpr hf, if_neg Bool.false_ne_true]
  rw [hdown, hup]
  refine ⟨⟨fun j => ?_, rfl, rfl⟩, fun j => ?_, rfl⟩
  · rw [State.keyHeld, keyDown, State.setKeys_pressed, BitVec.getLsbD_or, getLsbD_twoPow_key, Bool.or_comm]
    rfl
  · have hj : j.toNat < 16 := j.isLt
    rw [State.keyHeld, keyUp, State.setKeys_pressed, BitVec.getLsbD_and, BitVec.getLsbD_not, decide_eq_true hj,
      getLsbD_twoPow_key, Bool.true_and, Bool.and_comm]
    rfl

/-! Reset and program load -/

/-- Byte `j` of glyph `d` in the font (`10_state.md` R22). -/
theorem resetByte_font {d j : Nat} (hj : j < 5) :
    resetByte (0x050 + d * 5 + j) = (fontGlyphs.getD d []).getD j 0 := by
  have hdiv : (0x050 + d * 5 + j - 0x050) / 5 = d := by omega
  have hmod : (0x050 + d * 5 + j - 0x050) % 5 = j := by omega
  rw [resetByte, if_pos (by show 0x50 ≤ _; omega), hdiv, hmod]

/-- Outside the font memory is 0 at reset (`10_state.md` R38). -/
theorem resetByte_outside {a : Nat} (ha : a < 0x050 ∨ 0x09F < a) : resetByte a = 0 := by
  obtain hlow | hhigh := ha
  · exact if_neg (not_le.mpr hlow)
  · have hdigit : fontGlyphs.length ≤ (a - 0x050) / 5 := by
      show 16 ≤ _
      omega
    rw [resetByte, if_pos (by show 0x50 ≤ _; omega), List.getD_eq_default _ _ hdigit]
    rfl

/-- Settles O53: the values are read off `State.reset`, memory off its reset contents. -/
theorem resetValues : Obligations.ResetValues := by
  unfold Obligations.ResetValues
  intro font s
  refine ⟨fun d j _ hj => resetByte_font hj, fun a ha => resetByte_outside ha, fun x => ?_, rfl, rfl, rfl, rfl, rfl,
    Grid.cell_blank, Grid.cell_blank, rfl, rfl, fun k => ?_, rfl, fun _ => rfl⟩
  · exact Vector.getElem_replicate _
  · exact BitVec.getLsbD_zero

/-- Settles O54: the bounds of the whole image decide between one write and the fault. -/
theorem loadProgramWritesImage : Obligations.LoadProgramWritesImage := by
  unfold Obligations.LoadProgramWritesImage
  intro bytes s hf
  refine ⟨fun hle => ?_, fun hgt => loadProgram_of_gt hf (by omega)⟩
  exact ⟨_, loadProgram_of_le hf (by omega), fun j hj => readByte_writeBytes_offset _ _ j hj,
    sameMemoryOutside_of_writeBytes rfl, rfl⟩

end Sys2Proof.Machine
end
